-- ==== Sys2Proof/Word.lean ====
section
/-! DEFINITION. The two word types of the block: a data byte and an instruction word (spec 00_scope.md section 6). -/

namespace Sys2Proof

/-- A register, a data-memory cell or a program-memory byte: 8 bits (R10, R11, R20). -/
abbrev Byte := BitVec 8

/-- An instruction word: 16 bits (R50). Also the 16-bit value of a register pair (R34). -/
abbrev OpWord := BitVec 16

end Sys2Proof
end

