-- ==== Sys2Proof/Config.lean ====
section
/-! DEFINITION. What is fixed at construction (R2, R4), and the one free value of the model. -/

namespace Sys2Proof

/-- The construction parameters (R2) and the PC width (R4). They never change afterwards; State carries them so
that statements range over every configuration (DESIGN CHOICE, log 1). -/
structure Config where
  /-- DATA_SIZE, bytes of data memory. -/
  dataSize : Nat
  /-- PROG_BYTES, bytes of program memory. -/
  progBytes : Nat
  /-- SREG_ADDR, data address of the status register. -/
  sregAddr : Nat
  /-- PC_BITS, width of the program counter. -/
  pcBits : Nat
deriving DecidableEq, Repr

/-- PROG_WORDS = PROG_BYTES / 2 (R3). -/
abbrev Config.progWords (c : Config) : Nat := c.progBytes / 2

/-- The reference configuration of the test vectors (00_scope.md section 4, D6): the spec leaves the values open, and
State.reset uses these (DESIGN CHOICE, log 2). -/
def Config.reference : Config where
  dataSize := 2304
  progBytes := 32768
  sregAddr := 0x5F
  pcBits := 16

/-- FREE VALUE (log 8): the "detail" that InvalidOperand carries when the host gives a register index above 31.
R150 calls it unspecified. The first argument says whether the call was a write, the second is the index. -/
opaque Config.invalidOperandDetail : Bool → Nat → Nat

end Sys2Proof
end

