-- ==== Sys2Proof/Syntax.lean ====
section
/-! DEFINITION. The twelve instructions of the descriptor table (R56), each with its RAW fields (R53): the decoder
returns raw fields, and the handler maps them to a register number or sign-extends them (C7). -/

namespace Sys2Proof

/-- One constructor per row of the opcode table. A field letter's width is its width in the template (R51, R56). -/
inductive Instr where
  /-- `ADD Rd,Rr` (R90). -/
  | add (d r : BitVec 5)
  /-- `ADC Rd,Rr` (R91). -/
  | adc (d r : BitVec 5)
  /-- `ADIW Rd+1:Rd,K` (R92); `d` names a pair. -/
  | adiw (d : BitVec 2) (K : BitVec 6)
  /-- `AND Rd,Rr` (R100). -/
  | and (d r : BitVec 5)
  /-- `ANDI Rd,K` (R101); `d` names one of R16..R31. -/
  | andi (d : BitVec 4) (K : BitVec 8)
  /-- `ASR Rd` (R110). -/
  | asr (d : BitVec 5)
  /-- `BSET s` (R115). -/
  | bset (s : BitVec 3)
  /-- `BCLR s` (R116). -/
  | bclr (s : BitVec 3)
  /-- `BLD Rd,b` (R120). -/
  | bld (d : BitVec 5) (b : BitVec 3)
  /-- `BST Rd,b` (R121). -/
  | bst (d : BitVec 5) (b : BitVec 3)
  /-- `BRBS s,k` (R125). -/
  | brbs (k : BitVec 7) (s : BitVec 3)
  /-- `BRBC s,k` (R126). -/
  | brbc (k : BitVec 7) (s : BitVec 3)
deriving DecidableEq, Repr

end Sys2Proof
end

