-- ==== Sys2Proof/WellFormed.lean ====
section
/-! DEFINITION. Well-formedness. A CONFIGURATION is checked (R3). An INSTRUCTION needs no check: the types of its raw
fields have exactly the widths of the encoding, and by R58 and R59 every raw field value is legal, so an ill-formed
instruction cannot be written down. -/

namespace Sys2Proof

/-- R3: the six bounds a configuration must meet. A model refuses any other configuration. -/
abbrev Config.WellFormed (c : Config) : Prop :=
  33 ≤ c.dataSize ∧ 32 ≤ c.sregAddr ∧ c.sregAddr < c.dataSize ∧
    c.progBytes % 2 = 0 ∧ 2 ≤ c.progBytes ∧ c.progBytes / 2 ≤ 2 ^ c.pcBits

end Sys2Proof
end

