-- ==== Sys2Proof/Decode.lean ====
section
/-! DEFINITION. The descriptor table and the decoder algorithm (R51 to R56), the encoder written from the seven
formats of R51, and the byte order of a program word (R33). The bit patterns are the spec's, which has them from
general knowledge (D1, G1; log 12). -/

namespace Sys2Proof

/-- One position of a template (R51): a literal bit or a field letter. -/
inductive Slot where
  | zero | one | d | r | K | k | s | b
deriving DecidableEq, Repr

/-- The instruction identifiers of R56. -/
inductive InstrId where
  | add | adc | adiw | and | andi | asr | bset | bclr | bld | bst | brbs | brbc
deriving DecidableEq, Repr

/-- A row of the descriptor table (R56): its template, bit 15 first, and the mask and match the table prints. -/
structure Descriptor where
  id : InstrId
  template : List Slot
  mask : OpWord
  pattern : OpWord
deriving DecidableEq, Repr

/-- The raw fields of a word, an unsigned integer per letter (R53); 0 for a letter the template does not have. -/
structure RawFields where
  d : Nat
  r : Nat
  K : Nat
  k : Nat
  s : Nat
  b : Nat
deriving DecidableEq, Repr

/-- Why a word is rejected. -/
inductive DecodeError where
  /-- R55: no descriptor's literal bits match. -/
  | unknownOpcode (word : OpWord)
  /-- Fewer than two bytes were given, so there is no word (R50). No fetch does this. -/
  | truncated
deriving DecidableEq, Repr

open Slot in
/-- R56, the rows of the formats RR, WI6 and RI8. -/
def aluDescriptors : List Descriptor :=
  [ ⟨.add,  [zero,zero,zero,zero, one,one,r,d, d,d,d,d, r,r,r,r], 0xFC00, 0x0C00⟩,
    ⟨.adc,  [zero,zero,zero,one, one,one,r,d, d,d,d,d, r,r,r,r], 0xFC00, 0x1C00⟩,
    ⟨.adiw, [one,zero,zero,one, zero,one,one,zero, K,K,d,d, K,K,K,K], 0xFF00, 0x9600⟩,
    ⟨.and,  [zero,zero,one,zero, zero,zero,r,d, d,d,d,d, r,r,r,r], 0xFC00, 0x2000⟩,
    ⟨.andi, [zero,one,one,one, K,K,K,K, d,d,d,d, K,K,K,K], 0xF000, 0x7000⟩ ]

open Slot in
/-- R56, the rows of the formats R1, S, RB and BR. -/
def bitDescriptors : List Descriptor :=
  [ ⟨.asr,  [one,zero,zero,one, zero,one,zero,d, d,d,d,d, zero,one,zero,one], 0xFE0F, 0x9405⟩,
    ⟨.bset, [one,zero,zero,one, zero,one,zero,zero, zero,s,s,s, one,zero,zero,zero], 0xFF8F, 0x9408⟩,
    ⟨.bclr, [one,zero,zero,one, zero,one,zero,zero, one,s,s,s, one,zero,zero,zero], 0xFF8F, 0x9488⟩,
    ⟨.bld,  [one,one,one,one, one,zero,zero,d, d,d,d,d, zero,b,b,b], 0xFE08, 0xF800⟩,
    ⟨.bst,  [one,one,one,one, one,zero,one,d, d,d,d,d, zero,b,b,b], 0xFE08, 0xFA00⟩,
    ⟨.brbs, [one,one,one,one, zero,zero,k,k, k,k,k,k, k,s,s,s], 0xFC00, 0xF000⟩,
    ⟨.brbc, [one,one,one,one, zero,one,k,k, k,k,k,k, k,s,s,s], 0xFC00, 0xF400⟩ ]

/-- R56: the descriptor table has exactly these twelve entries. -/
def descriptorTable : List Descriptor := aluDescriptors ++ bitDescriptors

/-- Whether a template position is a literal bit (R52). -/
def Slot.isLiteral : Slot → Bool
  | .zero | .one => true
  | .d | .r | .K | .k | .s | .b => false

/-- R52: the word with a 1 at every position of the template that the test accepts. -/
def maskWhere (p : Slot → Bool) : List Slot → Nat
  | [] => 0
  | x :: rest => (if p x then 2 ^ rest.length else 0) + maskWhere p rest

/-- R52: a descriptor is a candidate for `w` exactly when `(w & mask) = match`. -/
def Descriptor.candidate (row : Descriptor) (w : OpWord) : Bool :=
  w &&& row.mask == row.pattern

/-- R53: gather the bits of `w` at the positions of letter `c`, most significant occurrence first. -/
def gather (c : Slot) (w : OpWord) : List Slot → Nat → Nat
  | [], acc => acc
  | x :: rest, acc => gather c w rest (if x = c then 2 * acc + (w.getLsbD rest.length).toNat else acc)

/-- R53: the raw fields of `w` under a template. -/
def rawFields (t : List Slot) (w : OpWord) : RawFields where
  d := gather .d w t 0
  r := gather .r w t 0
  K := gather .K w t 0
  k := gather .k w t 0
  s := gather .s w t 0
  b := gather .b w t 0

/-- The instruction of an identifier and raw fields (the decoder's answer, R50). -/
def InstrId.withFields (f : RawFields) : InstrId → Instr
  | .add => .add (.ofNat 5 f.d) (.ofNat 5 f.r)
  | .adc => .adc (.ofNat 5 f.d) (.ofNat 5 f.r)
  | .adiw => .adiw (.ofNat 2 f.d) (.ofNat 6 f.K)
  | .and => .and (.ofNat 5 f.d) (.ofNat 5 f.r)
  | .andi => .andi (.ofNat 4 f.d) (.ofNat 8 f.K)
  | .asr => .asr (.ofNat 5 f.d)
  | .bset => .bset (.ofNat 3 f.s)
  | .bclr => .bclr (.ofNat 3 f.s)
  | .bld => .bld (.ofNat 5 f.d) (.ofNat 3 f.b)
  | .bst => .bst (.ofNat 5 f.d) (.ofNat 3 f.b)
  | .brbs => .brbs (.ofNat 7 f.k) (.ofNat 3 f.s)
  | .brbc => .brbc (.ofNat 7 f.k) (.ofNat 3 f.s)

/-- The identifier of an instruction (R50). -/
def instrId : Instr → InstrId
  | .add _ _ => .add
  | .adc _ _ => .adc
  | .adiw _ _ => .adiw
  | .and _ _ => .and
  | .andi _ _ => .andi
  | .asr _ => .asr
  | .bset _ => .bset
  | .bclr _ => .bclr
  | .bld _ _ => .bld
  | .bst _ _ => .bst
  | .brbs _ _ => .brbs
  | .brbc _ _ => .brbc

/-- R52 to R55: the decoder, a function because no word is a candidate of two rows (R54). -/
def decode (w : OpWord) : Except DecodeError Instr :=
  match descriptorTable.find? (fun row => row.candidate w) with
  | some row => .ok (row.id.withFields (rawFields row.template w))
  | none => .error (.unknownOpcode w)

/-- R33: the byte at the lower address is bits 7..0 of the word. -/
def wordOfBytes (lo hi : Byte) : OpWord := hi ++ lo

/-- Bits 7..0. -/
def lowByte (w : OpWord) : Byte := w.extractLsb' 0 8

/-- Bits 15..8. -/
def highByte (w : OpWord) : Byte := w.extractLsb' 8 8

/-- The decoder on bytes as program memory holds them (R33): one word, and the bytes after it. -/
def decodeBytes : List Byte → Except DecodeError (Instr × List Byte)
  | lo :: hi :: rest =>
    match decode (wordOfBytes lo hi) with
    | .ok i => .ok (i, rest)
    | .error e => .error e
  | _ => .error .truncated

/-- Format RR (R51): `r` bit 4 at word bit 9, `d` at 8..4, `r` bits 3..0 at 3..0. -/
def formatRR (opcode : BitVec 6) (d r : BitVec 5) : OpWord :=
  opcode ++ r.extractLsb' 4 1 ++ d ++ r.extractLsb' 0 4

/-- Format RI8 (R51). -/
def formatRI8 (opcode : BitVec 4) (d : BitVec 4) (K : BitVec 8) : OpWord :=
  opcode ++ K.extractLsb' 4 4 ++ d ++ K.extractLsb' 0 4

/-- Format WI6 (R51). -/
def formatWI6 (opcode : BitVec 8) (d : BitVec 2) (K : BitVec 6) : OpWord :=
  opcode ++ K.extractLsb' 4 2 ++ d ++ K.extractLsb' 0 4

/-- Format R1 (R51). -/
def formatR1 (high : BitVec 7) (d : BitVec 5) (low : BitVec 4) : OpWord :=
  high ++ d ++ low

/-- Format S (R51). -/
def formatS (high : BitVec 9) (s : BitVec 3) (low : BitVec 4) : OpWord :=
  high ++ s ++ low

/-- Format RB (R51): bit 3 is a literal 0. -/
def formatRB (opcode : BitVec 7) (d : BitVec 5) (b : BitVec 3) : OpWord :=
  opcode ++ d ++ 0#1 ++ b

/-- Format BR (R51). -/
def formatBR (opcode : BitVec 6) (k : BitVec 7) (s : BitVec 3) : OpWord :=
  opcode ++ k ++ s

/-- The word of an instruction, from the formats of R51 and the literal bits of R56. -/
def encode : Instr → OpWord
  | .add d r => formatRR 0b000011 d r
  | .adc d r => formatRR 0b000111 d r
  | .adiw d K => formatWI6 0b10010110 d K
  | .and d r => formatRR 0b001000 d r
  | .andi d K => formatRI8 0b0111 d K
  | .asr d => formatR1 0b1001010 d 0b0101
  | .bset s => formatS 0b100101000 s 0b1000
  | .bclr s => formatS 0b100101001 s 0b1000
  | .bld d b => formatRB 0b1111100 d b
  | .bst d b => formatRB 0b1111101 d b
  | .brbs k s => formatBR 0b111100 k s
  | .brbc k s => formatBR 0b111101 k s

/-- The table word of the fixed interface: `w`'s low `nbits` bits are the instruction, the bits above are 0. It is
laid out low byte first (R33) and given to the decoder; a row of more than 16 bits is none of this block's (R50;
log 19). -/
def decodeTableWord (nbits w : Nat) : Option Instr :=
  let word : OpWord := .ofNat 16 (w % 2 ^ nbits)
  if nbits ≤ 16 then
    match decodeBytes [lowByte word, highByte word] with
    | .ok (i, _) => some i
    | .error _ => none
  else none

end Sys2Proof
end

