-- ==== Sys2Proof/Machine/State.lean ====
section
/-! DEFINITION. The state of 10_state.md as plain data, the reasons a step stops, and the state after reset. -/

namespace Sys2Proof.Machine

/-- CpuFault (R143, R150): exactly three kinds, with names and no cause codes (D16). -/
inductive Fault where
  /-- R151: the Decode phase found no matching descriptor; carries the fetched word. Raised by a step's decode. Safe. -/
  | unknownOpcode (word : OpWord)
  /-- R152: an access outside the configured bounds; carries the address, which for a fetch or a load is the byte
  address of the word (D9, D13). Raised by a fetch, by the loader, and by a handler only in an ill-formed
  configuration, which `step` refuses. Safe. -/
  | addressOutOfRange (address : Nat)
  /-- R153: an operand outside its documented domain; the detail is unspecified (a free value, log 8). Raised by
  `readRegister` and `writeRegister` on an index above 31, by no instruction (R61). Safe. -/
  | invalidOperand (detail : Nat)
deriving DecidableEq, Repr

/-- Why the model gives no meaning. -/
inductive Refusal where
  /-- An instruction that has no meaning yet. No arm answers it. Safe. -/
  | notModelled (mnemonic : String)
  /-- R3: the configuration is not well formed; a model refuses it and gives it no behaviour. Raised by `step` and by
  `construct`. Safe (log 9). -/
  | illFormedConfiguration
deriving DecidableEq, Repr

/-- ENGINE and FAULT (R21, R22) in one field: FAULT is none exactly while ENGINE is Ready, so the recorded fault is the
argument of `halted` (DESIGN CHOICE, log 20). Fetch, Decode and Execute are phases inside one step (R21). -/
inductive Engine where
  | ready
  | halted (recorded : Fault)
deriving DecidableEq, Repr

/-- The eight flags of SREG (R14). -/
inductive Flag where
  | c | z | n | v | s | h | t | i
deriving DecidableEq, Repr

/-- A byte memory: address and byte pairs in one canonical form, see `Memory.wf`. -/
abbrev Memory := List Host.Cell

/-- What an unlisted address reads as (DESIGN CHOICE, log 5). Every contents of a memory has its list, so this is how
contents are written down and says nothing about what they are. -/
def Memory.unlisted : Byte := 0

/-- The canonical form: addresses strictly rising, and no entry equal to what an unlisted address reads as. -/
abbrev Memory.wf (m : Memory) : Prop :=
  m.Pairwise (fun x y => x.1 < y.1) ∧ ∀ cell ∈ m, cell.2 ≠ Memory.unlisted

/-- The state of the block (10_state.md). R0..R31 are the cells 0..31 of `dmem` (R11) and SREG is its cell
`cfg.sregAddr` (R13); each is stored there and nowhere else. -/
structure State where
  /-- The construction parameters, which no step changes (R2; log 1). -/
  cfg : Config
  /-- DMEM (R10). -/
  dmem : Memory
  /-- PMEM, by byte address (R20). -/
  pmem : Memory
  /-- PC, an unsigned word index (R17) below `2 ^ cfg.pcBits` (R19; log 6). -/
  pc : Nat
  /-- ENGINE and FAULT (R21, R22). -/
  engine : Engine
deriving DecidableEq, Repr

/-- After reset (R24, R27, R171): PC 0, engine Ready, no fault. The configuration is the reference one (log 2); the
contents of DMEM, registers and SREG included (log 3), and of PMEM (log 4) are zero, where the spec states none. -/
def State.reset : State where
  cfg := Config.reference
  dmem := []
  pmem := []
  pc := 0
  engine := .ready

/-- FAULT (R22): none while Ready, else the fault that halted the engine. -/
abbrev State.faultRegister (s : State) : Option Fault :=
  match s.engine with
  | .ready => none
  | .halted f => some f

end Sys2Proof.Machine
end

