-- ==== Sys2Proof/Machine/Ops.lean ====
section
/-! DEFINITION. The operations over memory, flags, PC and engine: the access primitives of 20_memory.md, the PC write
of R19, and fault entry (R155). A primitive that raises answers `.error` and no state, so nothing is half done (R36). -/

namespace Sys2Proof.Machine

/-- The byte at an address of a memory. -/
def Memory.read : Memory → Nat → Byte
  | [], _ => Memory.unlisted
  | (b, v) :: rest, a => if b = a then v else Memory.read rest a

/-- The memory without an entry for `a`. -/
def Memory.erase (m : Memory) (a : Nat) : Memory :=
  m.filter (fun cell => cell.1 ≠ a)

/-- Put an entry at its place in the rising order. -/
def Memory.insert : Memory → Nat → Byte → Memory
  | [], a, v => [(a, v)]
  | (b, x) :: rest, a, v => if a < b then (a, v) :: (b, x) :: rest else (b, x) :: Memory.insert rest a v

/-- Write one byte, keeping the canonical form: the value an unlisted address reads as is not listed. -/
def Memory.write (m : Memory) (a : Nat) (v : Byte) : Memory :=
  if v = Memory.unlisted then Memory.erase m a else Memory.insert (Memory.erase m a) a v

/-- The memory of `size` bytes whose byte at `a` is `f a` (a launch argument, R25, R26). -/
def Memory.ofFun (size : Nat) (f : Nat → Byte) : Memory :=
  (List.range size).filterMap (fun a => if f a = Memory.unlisted then none else some (a, f a))

/-- The state with one data byte stored, without the bounds check. -/
def State.putByte (s : State) (a : Nat) (v : Byte) : State :=
  { s with dmem := s.dmem.write a v }

/-- MemRead (R30). -/
def memRead (addr : Nat) (s : State) : Except Fault Byte :=
  if addr < s.cfg.dataSize then .ok (s.dmem.read addr) else .error (.addressOutOfRange addr)

/-- MemWrite (R30). -/
def memWrite (addr : Nat) (v : Byte) (s : State) : Except Fault State :=
  if addr < s.cfg.dataSize then .ok (s.putByte addr v) else .error (.addressOutOfRange addr)

/-- The mask of the flag at bit index `s`, `1 << s` (R14, R31). -/
def flagMask (s : Nat) : Byte := 1#8 <<< s

/-- readFlag (R31). -/
def readFlagMask (mask : Byte) (s : State) : Except Fault Bool := do
  let sreg ← memRead s.cfg.sregAddr s
  return (sreg &&& mask) != 0

/-- The byte SREG becomes when the masked flag is written (R31). -/
def withFlag (mask : Byte) (b : Bool) (old : Byte) : Byte :=
  if b then old ||| mask else old &&& ~~~mask

/-- setFlag (R31): OR or AND-NOT on the stored byte. -/
def setFlagMask (mask : Byte) (b : Bool) (s : State) : Except Fault State := do
  let old ← memRead s.cfg.sregAddr s
  memWrite s.cfg.sregAddr (withFlag mask b old) s

/-- ProgRead (R32, R33): the word at word index `w`, low byte at the lower address. -/
def progRead (w : Nat) (s : State) : Except Fault OpWord :=
  if w < s.cfg.progWords then
    .ok (wordOfBytes (s.pmem.read (2 * w)) (s.pmem.read (2 * w + 1)))
  else .error (.addressOutOfRange (2 * w))

/-- The loader's two byte writes (R144), without the bounds check. -/
def State.withProgWord (s : State) (w : Nat) (word : OpWord) : State :=
  { s with pmem := (s.pmem.write (2 * w) (lowByte word)).write (2 * w + 1) (highByte word) }

/-- `pc <- t` (R19): every write of the PC stores `t mod 2^PC_BITS`, also for a negative `t`. -/
def State.setPc (t : Int) (s : State) : State :=
  { s with pc := (t % (2 ^ s.cfg.pcBits : Nat)).toNat }

/-- FAULT ENTRY (R155), the one shared operation: ENGINE <- Halted, FAULT <- the fault, nothing else. The PC keeps the
faulting word's index, nothing is saved, and there is no handler address. There is no return from a fault (R158), so no
operation stands beside this one: only construction leaves Halted. -/
def enterHalted (f : Fault) (s : State) : State :=
  { s with engine := .halted f }

/-- A handler's answer as an outcome: what it raises, or its next state. -/
def answer : Except Fault State → Host.Outcome State Fault Refusal
  | .ok t => .next t
  | .error f => .fault f

end Sys2Proof.Machine
end

