-- ==== Sys2Proof/Machine/Operands.lean ====
section
/-! DEFINITION. Every operand form: the register numbers of the raw fields (R58), register and register-pair access
(R11, R34), and the branch offset (R59). -/

namespace Sys2Proof.Machine

/-- A 5-bit raw field is the register number itself, 0..31 (R58). -/
def regNumber (raw : BitVec 5) : Nat := raw.toNat

/-- The 4-bit `d` of ANDI names register `16 + d` (R58). -/
def upperRegNumber (raw : BitVec 4) : Nat := 16 + raw.toNat

/-- The 2-bit `d` of ADIW names the pair whose low register is `24 + 2*d` (R58). -/
def pairLowNumber (raw : BitVec 2) : Nat := 24 + 2 * raw.toNat

/-- `R[n]`, the cell `DMEM[n]` (R11). -/
def readReg (n : Nat) (s : State) : Except Fault Byte := memRead n s

/-- `R[n] <- v` (R11). -/
def writeReg (n : Nat) (v : Byte) (s : State) : Except Fault State := memWrite n v s

/-- The 16-bit value `R[lo+1] ++ R[lo]` of a register pair (R34, R92). -/
def readPair (lo : Nat) (s : State) : Except Fault OpWord := do
  let low ← readReg lo s
  let high ← readReg (lo + 1) s
  return high ++ low

/-- Both register writes of ADIW (R92), low register first. -/
def writePair (lo : Nat) (v : OpWord) (s : State) : Except Fault State := do
  let s ← writeReg lo (lowByte v) s
  writeReg (lo + 1) (highByte v) s

/-- `sext_7` (00_scope.md section 6, R59): the branch offset, -64..+63. -/
def branchOffset (k : BitVec 7) : Int :=
  if k.getLsbD 6 then (k.toNat : Int) - 128 else k.toNat

/-- `R[i]`, an observation of the state. -/
def State.reg (s : State) (n : Nat) : Byte := s.dmem.read n

/-- The SREG byte (R13), an observation of the state. -/
def State.sreg (s : State) : Byte := s.dmem.read s.cfg.sregAddr

end Sys2Proof.Machine
end

