-- ==== Sys2Proof/Machine/Flags.lean ====
section
/-! DEFINITION. The status-flag engine of 40_flag_engine.md: pure functions (R70) on the operands before and the result
after, and the groups of flags each kind of instruction defines (R85). `a` is the first operand, `b` the second, `cin`
the carry in, `r` the truncated result. -/

namespace Sys2Proof.Machine

/-- The bit position of a flag (R14). -/
def Flag.bit : Flag → Nat
  | .c => 0
  | .z => 1
  | .n => 2
  | .v => 3
  | .s => 4
  | .h => 5
  | .t => 6
  | .i => 7

/-- The mask of a flag (R14). -/
def Flag.mask (f : Flag) : Byte := flagMask f.bit

/-- A flag of the state, an observation. -/
def State.flag (s : State) (f : Flag) : Bool := s.sreg.getLsbD f.bit

/-- `full`, the untruncated sum (R70). -/
def addFull (a b : Byte) (cin : Bool) : Nat := a.toNat + b.toNat + cin.toNat

/-- The truncated sum (R90, R91). -/
def addResult (a b : Byte) (cin : Bool) : Byte := .ofNat 8 (addFull a b cin % 256)

/-- C_add (R71). -/
def carryAdd (a b : Byte) (cin : Bool) : Bool := decide (addFull a b cin > 255)

/-- Z (R72). -/
def zeroFlag (r : Byte) : Bool := r == 0

/-- N (R73). -/
def negativeFlag (r : Byte) : Bool := r.getLsbD 7

/-- V_add (R74). -/
def overflowAdd (a b r : Byte) : Bool := a.getLsbD 7 == b.getLsbD 7 && r.getLsbD 7 != a.getLsbD 7

/-- S (R75), from the new N and V. -/
def signFlag (n v : Bool) : Bool := n ^^ v

/-- H_add (R76). -/
def halfCarryAdd (a b : Byte) (cin : Bool) : Bool :=
  decide ((a &&& 0x0F).toNat + (b &&& 0x0F).toNat + cin.toNat > 15)

/-- `a - b - cin`, untruncated (R78). -/
def subFull (a b : Byte) (cin : Bool) : Int := (a.toNat : Int) - b.toNat - cin.toNat

/-- The truncated difference (R78). -/
def subResult (a b : Byte) (cin : Bool) : Byte := .ofInt 8 (subFull a b cin % 256)

/-- C_sub (R78): a borrow. No instruction of the block calls the subtraction functions (log 21). -/
def carrySub (a b : Byte) (cin : Bool) : Bool := decide (subFull a b cin < 0)

/-- V_sub (R79). -/
def overflowSub (a b r : Byte) : Bool := a.getLsbD 7 != b.getLsbD 7 && r.getLsbD 7 != a.getLsbD 7

/-- H_sub (R80). -/
def halfCarrySub (a b : Byte) (cin : Bool) : Bool :=
  decide (((a &&& 0x0F).toNat : Int) - (b &&& 0x0F).toNat - cin.toNat < 0)

/-- C_shr (R81): the bit shifted out. -/
def carryShiftRight (a : Byte) : Bool := a.getLsbD 0

/-- V_shift (R82), from the new N and C. -/
def overflowShift (n c : Bool) : Bool := n ^^ c

/-- `full` of ADIW (R84). -/
def wordFull (x : OpWord) (K : BitVec 6) : Nat := x.toNat + K.toNat

/-- `res` of ADIW (R84). -/
def wordResult (x : OpWord) (K : BitVec 6) : OpWord := .ofNat 16 (wordFull x K % 65536)

/-- C of ADIW (R84). -/
def carryWord (x : OpWord) (K : BitVec 6) : Bool := decide (wordFull x K > 65535)

/-- Z of ADIW (R84). -/
def zeroWord (r : OpWord) : Bool := r == 0

/-- N of ADIW (R84). -/
def negativeWord (r : OpWord) : Bool := r.getLsbD 15

/-- V of ADIW (R84). -/
def overflowWord (x r : OpWord) : Bool := x.getLsbD 15 == false && r.getLsbD 15 == true

/-- The six flags of an addition (R71 to R76, R85). -/
def additionFlags (a b : Byte) (cin : Bool) (r : Byte) : List (Flag × Bool) :=
  let n := negativeFlag r
  let v := overflowAdd a b r
  [(.h, halfCarryAdd a b cin), (.s, signFlag n v), (.v, v), (.n, n), (.z, zeroFlag r), (.c, carryAdd a b cin)]

/-- The flags of a logical operation (R83): Z and N from the result, V cleared, S = N ^ V. -/
def logicFlags (r : Byte) : List (Flag × Bool) :=
  let n := negativeFlag r
  [(.s, signFlag n false), (.v, false), (.n, n), (.z, zeroFlag r)]

/-- The flags of a shift right (R81, R82, R85). -/
def shiftFlags (a r : Byte) : List (Flag × Bool) :=
  let n := negativeFlag r
  let c := carryShiftRight a
  let v := overflowShift n c
  [(.s, signFlag n v), (.v, v), (.n, n), (.z, zeroFlag r), (.c, c)]

/-- The flags of the 16-bit word addition (R84). -/
def wordFlags (x : OpWord) (K : BitVec 6) (r : OpWord) : List (Flag × Bool) :=
  let n := negativeWord r
  let v := overflowWord x r
  [(.s, signFlag n v), (.v, v), (.n, n), (.z, zeroWord r), (.c, carryWord x K)]

/-- Store the flags of a group, one `SREG.X <- b` each (R31). -/
def setFlags : List (Flag × Bool) → State → Except Fault State
  | [], s => .ok s
  | (f, b) :: rest, s => do
    let s ← setFlagMask f.mask b s
    setFlags rest s

/-- Write a result register and then a group of flags: the end of every 8-bit handler, after all reads (R39). -/
def commit (n : Nat) (result : Byte) (flags : List (Flag × Bool)) (s : State) : Except Fault State := do
  let s ← writeReg n result s
  setFlags flags s

end Sys2Proof.Machine
end

