-- ==== Sys2Proof/Machine/Arithmetic.lean ====
section
/-! DEFINITION. ADD, ADC, ADIW (41_arithmetic.md). -/

namespace Sys2Proof.Machine

/-- The part ADD and ADC share: `R[d] <- R[d] + R[r] + cin`, with the flags of addition. -/
def addRegisters (d r : Nat) (cin : Bool) (s : State) : Except Fault State := do
  let a ← readReg d s
  let b ← readReg r s
  let res := addResult a b cin
  commit d res (additionFlags a b cin res) s

/-- ADD (R90). -/
def execAdd (d r : BitVec 5) (s : State) : Host.Outcome State Fault Refusal :=
  answer (addRegisters (regNumber d) (regNumber r) false s)

/-- ADC (R91): the carry in is the C flag before the instruction. -/
def execAdc (d r : BitVec 5) (s : State) : Host.Outcome State Fault Refusal :=
  answer (do
    let cin ← readFlagMask Flag.c.mask s
    addRegisters (regNumber d) (regNumber r) cin s)

/-- ADIW (R92). -/
def execAdiw (d : BitVec 2) (K : BitVec 6) (s : State) : Host.Outcome State Fault Refusal :=
  answer (do
    let x ← readPair (pairLowNumber d) s
    let res := wordResult x K
    let s ← writePair (pairLowNumber d) res s
    setFlags (wordFlags x K res) s)

end Sys2Proof.Machine
end

