-- ==== Sys2Proof/Machine/BitTransfer.lean ====
section
/-! DEFINITION. BLD, BST (45_bit_transfer.md). -/

namespace Sys2Proof.Machine

/-- BLD (R120): T into bit `b` of Rd; no flag is written. -/
def execBld (d : BitVec 5) (b : BitVec 3) (s : State) : Host.Outcome State Fault Refusal :=
  answer (do
    let a ← readReg (regNumber d) s
    let t ← readFlagMask Flag.t.mask s
    let bit : Byte := 1#8 <<< b.toNat
    writeReg (regNumber d) (if t then a ||| bit else a &&& ~~~bit) s)

/-- BST (R121): bit `b` of Rd into T; Rd is not written. -/
def execBst (d : BitVec 5) (b : BitVec 3) (s : State) : Host.Outcome State Fault Refusal :=
  answer (do
    let a ← readReg (regNumber d) s
    setFlagMask Flag.t.mask (a.getLsbD b.toNat) s)

end Sys2Proof.Machine
end

