-- ==== Sys2Proof/Machine/Branch.lean ====
section
/-! DEFINITION. BRBS, BRBC (46_branch.md). These handlers own the PC update (R139). -/

namespace Sys2Proof.Machine

/-- The PC update of both branches: `PC + off + 1` when taken, else `PC + 1`. -/
def branchIf (taken : Bool) (k : BitVec 7) (s : State) : State :=
  if taken then s.setPc (s.pc + branchOffset k + 1) else s.setPc (s.pc + 1)

/-- BRBS (R125): taken when the flag at bit `s` is 1. -/
def execBrbs (k : BitVec 7) (s : BitVec 3) (st : State) : Host.Outcome State Fault Refusal :=
  answer (do
    let set ← readFlagMask (flagMask s.toNat) st
    return branchIf set k st)

/-- BRBC (R126): taken when the flag at bit `s` is 0. -/
def execBrbc (k : BitVec 7) (s : BitVec 3) (st : State) : Host.Outcome State Fault Refusal :=
  answer (do
    let set ← readFlagMask (flagMask s.toNat) st
    return branchIf (!set) k st)

end Sys2Proof.Machine
end

