-- ==== Sys2Proof/Machine/Logic.lean ====
section
/-! DEFINITION. AND, ANDI (42_logic.md). -/

namespace Sys2Proof.Machine

/-- AND (R100). -/
def execAnd (d r : BitVec 5) (s : State) : Host.Outcome State Fault Refusal :=
  answer (do
    let a ← readReg (regNumber d) s
    let b ← readReg (regNumber r) s
    let res := a &&& b
    commit (regNumber d) res (logicFlags res) s)

/-- ANDI (R101). -/
def execAndi (d : BitVec 4) (K : BitVec 8) (s : State) : Host.Outcome State Fault Refusal :=
  answer (do
    let a ← readReg (upperRegNumber d) s
    let res := a &&& K
    commit (upperRegNumber d) res (logicFlags res) s)

end Sys2Proof.Machine
end

