-- ==== Sys2Proof/Machine/Shift.lean ====
section
/-! DEFINITION. ASR (43_shift.md). -/

namespace Sys2Proof.Machine

/-- ASR (R110): the old C is not shifted in; bit 7 is kept. -/
def execAsr (d : BitVec 5) (s : State) : Host.Outcome State Fault Refusal :=
  answer (do
    let a ← readReg (regNumber d) s
    let res := (a >>> 1) ||| (a &&& 0x80)
    commit (regNumber d) res (shiftFlags a res) s)

end Sys2Proof.Machine
end

