-- ==== Sys2Proof/Machine/SregBits.lean ====
section
/-! DEFINITION. BSET, BCLR (44_sreg_bits.md): exactly the flag at bit `s` is written, S is not recomputed (R15). -/

namespace Sys2Proof.Machine

/-- BSET (R115). -/
def execBset (s : BitVec 3) (st : State) : Host.Outcome State Fault Refusal :=
  answer (setFlagMask (flagMask s.toNat) true st)

/-- BCLR (R116). -/
def execBclr (s : BitVec 3) (st : State) : Host.Outcome State Fault Refusal :=
  answer (setFlagMask (flagMask s.toNat) false st)

end Sys2Proof.Machine
end

