-- ==== Sys2Proof/Machine/Dispatch.lean ====
section
/-! DEFINITION. The single dispatch function of R138: one arm per constructor of Instr. -/

namespace Sys2Proof.Machine

/-- The handler of an instruction (R138). It neither looks at ENGINE nor advances the PC of a non-branch (R139). -/
def exec (i : Instr) (s : State) : Host.Outcome State Fault Refusal :=
  match i with
  | .add d r => Sys2Proof.Machine.execAdd d r s
  | .adc d r => Sys2Proof.Machine.execAdc d r s
  | .adiw d K => Sys2Proof.Machine.execAdiw d K s
  | .and d r => Sys2Proof.Machine.execAnd d r s
  | .andi d K => Sys2Proof.Machine.execAndi d K s
  | .asr d => Sys2Proof.Machine.execAsr d s
  | .bset n => Sys2Proof.Machine.execBset n s
  | .bclr n => Sys2Proof.Machine.execBclr n s
  | .bld d b => Sys2Proof.Machine.execBld d b s
  | .bst d b => Sys2Proof.Machine.execBst d b s
  | .brbs k n => Sys2Proof.Machine.execBrbs k n s
  | .brbc k n => Sys2Proof.Machine.execBrbc k n s

end Sys2Proof.Machine
end

