-- ==== Sys2Proof/Machine/Engine.lean ====
section
/-! DEFINITION. The execution engine of 47_execution_engine.md: Fetch, Decode, Execute, the advance of the PC, and what
a raise does. -/

namespace Sys2Proof.Machine

/-- Fetch (R136): the word at the PC. -/
def fetch (s : State) : Except Fault OpWord := progRead s.pc s

/-- Whether the handler owns the PC update (R139): the branches, and no other instruction. -/
def ownsPc : Instr → Bool
  | .add _ _ => false
  | .adc _ _ => false
  | .adiw _ _ => false
  | .and _ _ => false
  | .andi _ _ => false
  | .asr _ => false
  | .bset _ => false
  | .bclr _ => false
  | .bld _ _ => false
  | .bst _ _ => false
  | .brbs _ _ => true
  | .brbc _ _ => true

/-- The engine's own PC update (R139): `pc <- PC + 1` after every handler but a branch's. -/
def advancePc (i : Instr) (s : State) : State :=
  if ownsPc i then s else s.setPc (s.pc + 1)

/-- Execute (R135, R138): the handler, then the engine's PC update. -/
def execute (i : Instr) (s : State) : Host.Outcome State Fault Refusal :=
  match exec i s with
  | .next t => .next (advancePc i t)
  | .fault f => .fault f
  | .refused r => .refused r

/-- The decoder's rejection as the fault of a step (R55, R151). `truncated` cannot come from a fetched word. -/
def decodeFault (w : OpWord) : DecodeError → Fault
  | .unknownOpcode word => .unknownOpcode word
  | .truncated => .unknownOpcode w

/-- Fetch, Decode and Execute, in that order (R135, R154). -/
def phases (s : State) : Host.Outcome State Fault Refusal :=
  match fetch s with
  | .error f => .fault f
  | .ok w =>
    match decode w with
    | .error e => .fault (decodeFault w e)
    | .ok i => execute i s

/-- One step in Ready (R135): a raise anywhere takes the fault (R155), from the state before the step (R141). -/
def cycle (s : State) : Host.Outcome State Fault Refusal :=
  match phases s with
  | .next t => .next t
  | .fault f => .next (enterHalted f s)
  | .refused r => .refused r

end Sys2Proof.Machine
end

