-- ==== Sys2Proof/Machine/Step.lean ====
section
/-! DEFINITION. One step, and the fixed interface's placing of a word where the next fetch reads. -/

namespace Sys2Proof.Machine

/-- One call of `executeOne()` (R135), as an outcome. An ill-formed configuration has no behaviour (R3; log 9). In
Ready a fault is TAKEN: the next state is Halted with the fault recorded (R155). In Halted the machine stands still and
reports the recorded fault (R142; log 7). -/
def step (s : State) : Host.Outcome State Fault Refusal :=
  if s.cfg.WellFormed then
    match s.engine with
    | .ready => cycle s
    | .halted f => .fault f
  else .refused .illFormedConfiguration

/-- `s` with the table word stored at the PC, where the fetch of R136 reads: it stands for the loader (R144; log 4,
log 19). Bits of `w` above `nbits` are taken as 0. -/
def State.withFetchWord (s : State) (nbits w : Nat) : State :=
  s.withProgWord s.pc (.ofNat 16 (w % 2 ^ nbits))

end Sys2Proof.Machine
end

