-- ==== Sys2Proof/Machine/HostOps.lean ====
section
/-! DEFINITION. The block's public surface (R5): construction, the loader, the debugger's register and flag access, and
`executeOne()` with its result. Each is a function on State performed between steps (R44; log 15). -/

namespace Sys2Proof.Machine

/-- `new` (R147, R170, R171), with the launch arguments DMEM_INIT and PMEM_INIT (R25, R26): address to byte, read only
below the configured size. An ill-formed configuration is refused (R3). -/
def construct (cfg : Config) (dmemInit pmemInit : Nat → Byte) : Host.Outcome State Fault Refusal :=
  if cfg.WellFormed then
    .next { cfg := cfg, dmem := Memory.ofFun cfg.dataSize dmemInit, pmem := Memory.ofFun cfg.progBytes pmemInit,
            pc := 0, engine := .ready }
  else .refused .illFormedConfiguration

/-- `loadInstructionWord(offset, word)` (R144): `offset` is a word index (D13). -/
def loadInstructionWord (offset : Nat) (word : OpWord) (s : State) : Except Fault State :=
  if offset < s.cfg.progWords then .ok (s.withProgWord offset word) else .error (.addressOutOfRange (2 * offset))

/-- A bulk load (R144): a sequence of such writes. It stops at the first that fails, and the writes before that one
have been made (log 15). -/
def bulkLoad : List (Nat × OpWord) → State → State × Except Fault Unit
  | [], s => (s, .ok ())
  | (offset, word) :: rest, s =>
    match loadInstructionWord offset word s with
    | .ok t => bulkLoad rest t
    | .error f => (s, .error f)

/-- `readRegister(index)` (R145). -/
def readRegister (index : Nat) (s : State) : Except Fault Byte :=
  if index ≤ 31 then readReg index s else .error (.invalidOperand (Config.invalidOperandDetail false index))

/-- `writeRegister(index, byte)` (R145). -/
def writeRegister (index : Nat) (v : Byte) (s : State) : Except Fault State :=
  if index ≤ 31 then writeReg index v s else .error (.invalidOperand (Config.invalidOperandDetail true index))

/-- `readFlag(flag)` (R146). -/
def readFlag (f : Flag) (s : State) : Except Fault Bool := readFlagMask f.mask s

/-- `executeOne()` (R135, R143) as the host sees it: the state after the call and `Ok(())` or `Err(fault)`; none for a
state whose configuration the model refuses. -/
def executeOne (s : State) : Option (State × Except Fault Unit) :=
  match step s with
  | .next t => some (t, match t.engine with
      | .ready => .ok ()
      | .halted f => .error f)
  | .fault f => some (s, .error f)
  | .refused _ => none

end Sys2Proof.Machine
end

