-- ==== Sys2Proof/Safety.lean ====
section
/-! DEFINITION. The terms claims are stated in: the invariant of the state, what each instruction may write, and what it
means that an instruction changed nothing else. There is no unsafe run: a fault is a legitimate end of a run (R148). -/

namespace Sys2Proof.Machine

/-- The invariant of the state: a well-formed configuration (R3), both memories in canonical form and inside their
configured sizes (R10, R20), and a PC of PC_BITS bits (R19). -/
abbrev State.wf (s : State) : Prop :=
  s.cfg.WellFormed ∧ Memory.wf s.dmem ∧ (∀ cell ∈ s.dmem, cell.1 < s.cfg.dataSize) ∧
    Memory.wf s.pmem ∧ (∀ cell ∈ s.pmem, cell.1 < s.cfg.progBytes) ∧ s.pc < 2 ^ s.cfg.pcBits

/-- The SREG flag at a bit index, the inverse of `Flag.bit` (R14). -/
def Flag.ofIndex (s : BitVec 3) : Flag :=
  match s.toNat with
  | 0 => .c
  | 1 => .z
  | 2 => .n
  | 3 => .v
  | 4 => .s
  | 5 => .h
  | 6 => .t
  | _ => .i

/-- The table of R85: the flags each instruction defines. -/
def flagsDefined : Instr → List Flag
  | .add _ _ => [.h, .s, .v, .n, .z, .c]
  | .adc _ _ => [.h, .s, .v, .n, .z, .c]
  | .adiw _ _ => [.s, .v, .n, .z, .c]
  | .and _ _ => [.s, .v, .n, .z]
  | .andi _ _ => [.s, .v, .n, .z]
  | .asr _ => [.s, .v, .n, .z, .c]
  | .bset s => [Flag.ofIndex s]
  | .bclr s => [Flag.ofIndex s]
  | .bld _ _ => []
  | .bst _ _ => [.t]
  | .brbs _ _ => []
  | .brbc _ _ => []

/-- The register numbers of R58 that each instruction writes. -/
def registersWritten : Instr → List Nat
  | .add d _ => [d.toNat]
  | .adc d _ => [d.toNat]
  | .adiw d _ => [24 + 2 * d.toNat, 24 + 2 * d.toNat + 1]
  | .and d _ => [d.toNat]
  | .andi d _ => [16 + d.toNat]
  | .asr d => [d.toNat]
  | .bset _ => []
  | .bclr _ => []
  | .bld d _ => [d.toNat]
  | .bst _ _ => []
  | .brbs _ _ => []
  | .brbc _ _ => []

/-- FRAME of data memory: from `s` to `t` no data byte changed but the registers listed and SREG, and in SREG no bit but
the flags listed. (SREG's eight bits are the eight flags, R14.) -/
def DataUnchangedBut (regs : List Nat) (flags : List Flag) (s t : State) : Prop :=
  (∀ a, a ∉ regs → a ≠ s.cfg.sregAddr → t.dmem.read a = s.dmem.read a) ∧
    (∀ f, f ∉ flags → t.flag f = s.flag f)

/-- FRAME of the rest of the state: parameters, program memory and engine. -/
def RestUnchanged (s t : State) : Prop :=
  t.cfg = s.cfg ∧ t.pmem = s.pmem ∧ t.engine = s.engine

/-- The whole frame of an instruction that leaves the PC to the engine (R139). -/
def UnchangedBut (regs : List Nat) (flags : List Flag) (s t : State) : Prop :=
  RestUnchanged s t ∧ t.pc = s.pc ∧ DataUnchangedBut regs flags s t

/-- Two states that differ at most in one flag of SREG. -/
def AgreeExceptFlag (f : Flag) (s t : State) : Prop :=
  t.cfg = s.cfg ∧ t.pmem = s.pmem ∧ t.engine = s.engine ∧ t.pc = s.pc ∧ DataUnchangedBut [] [f] s t

end Sys2Proof.Machine
end

