-- ==== Sys2Proof/Certificates/Slice0/Obligations.lean ====
section
/-! DEFINITION. The statements for the provers. Each docstring names the rule of spec/ it formalises. -/

open Sys2Proof Sys2Proof.Machine

/-! ## Encoding and decoding (30_encoding.md) -/

/-- Every instruction, with every operand at every value its encoding admits, survives the encoder and the decoder:
no bit of an encoding is dropped (R51, R53, R56). -/
def Obligations.DecodeOfEncodeIsTheInstruction : Prop :=
  ∀ i : Instr, decode (encode i) = .ok i

/-- The other direction: a word that decodes is the word of what it decodes to, so no two words are one instruction and
no bit of an accepted word is ignored (R52, R53, R56). -/
def Obligations.EncodeOfDecodeIsTheWord : Prop :=
  ∀ (w : OpWord) (i : Instr), decode w = .ok i → encode i = w

/-- R54, an inference of the spec (it derives it from R56): no word is a candidate of two descriptors. -/
def Obligations.NoWordMatchesTwoDescriptors : Prop :=
  ∀ w : OpWord, ∀ p ∈ descriptorTable, ∀ q ∈ descriptorTable,
    p.candidate w = true → q.candidate w = true → p = q

/-- R52: a descriptor is a candidate exactly when the word has the template's bit at every literal position (bit 15 is
the template's first character). -/
def Obligations.CandidateComparesTheLiteralBits : Prop :=
  ∀ row ∈ descriptorTable, row.template.length = 16 ∧ ∀ w : OpWord,
    (row.candidate w = true ↔ ∀ p < 16,
      (row.template[15 - p]? = some .zero → w.getLsbD p = false) ∧
      (row.template[15 - p]? = some .one → w.getLsbD p = true))

/-- R53 with the templates of R56: which bits of the word each raw field of a decoded instruction is. -/
def Obligations.DecodedFieldsAreTheWordsBits : Prop :=
  ∀ (w : OpWord) (i : Instr), decode w = .ok i →
    match i with
    | .add d r => d = w.extractLsb' 4 5 ∧ r = w.extractLsb' 9 1 ++ w.extractLsb' 0 4
    | .adc d r => d = w.extractLsb' 4 5 ∧ r = w.extractLsb' 9 1 ++ w.extractLsb' 0 4
    | .adiw d K => d = w.extractLsb' 4 2 ∧ K = w.extractLsb' 6 2 ++ w.extractLsb' 0 4
    | .and d r => d = w.extractLsb' 4 5 ∧ r = w.extractLsb' 9 1 ++ w.extractLsb' 0 4
    | .andi d K => d = w.extractLsb' 4 4 ∧ K = w.extractLsb' 8 4 ++ w.extractLsb' 0 4
    | .asr d => d = w.extractLsb' 4 5
    | .bset s => s = w.extractLsb' 4 3
    | .bclr s => s = w.extractLsb' 4 3
    | .bld d b => d = w.extractLsb' 4 5 ∧ b = w.extractLsb' 0 3
    | .bst d b => d = w.extractLsb' 4 5 ∧ b = w.extractLsb' 0 3
    | .brbs k s => k = w.extractLsb' 3 7 ∧ s = w.extractLsb' 0 3
    | .brbc k s => k = w.extractLsb' 3 7 ∧ s = w.extractLsb' 0 3

/-- The opcode map in prose under R56: which words decode, by their top four bits. Every other word is unknown. The
bit patterns are the spec's from general knowledge (D1, G1; log 12). -/
def Obligations.OpcodeMapByTopNibble : Prop :=
  ∀ w : OpWord, (∃ i, decode w = .ok i) ↔
    (w.extractLsb' 12 4 = 0b0000#4 ∧ w.extractLsb' 10 2 = 0b11#2) ∨
    (w.extractLsb' 12 4 = 0b0001#4 ∧ w.extractLsb' 10 2 = 0b11#2) ∨
    (w.extractLsb' 12 4 = 0b0010#4 ∧ w.extractLsb' 10 2 = 0b00#2) ∨
    w.extractLsb' 12 4 = 0b0111#4 ∨
    (w.extractLsb' 12 4 = 0b1001#4 ∧
      (w.extractLsb' 8 4 = 0b0110#4 ∨ (w.extractLsb' 9 3 = 0b010#3 ∧ w.extractLsb' 0 4 = 0b0101#4) ∨
        (w.extractLsb' 7 5 = 0b01000#5 ∧ w.extractLsb' 0 4 = 0b1000#4) ∨
        (w.extractLsb' 7 5 = 0b01001#5 ∧ w.extractLsb' 0 4 = 0b1000#4))) ∨
    (w.extractLsb' 12 4 = 0b1111#4 ∧
      (w.extractLsb' 10 2 = 0b00#2 ∨ w.extractLsb' 10 2 = 0b01#2 ∨
        (w.extractLsb' 9 3 = 0b100#3 ∧ w.getLsbD 3 = false) ∨
        (w.extractLsb' 9 3 = 0b101#3 ∧ w.getLsbD 3 = false)))

/-- R66: the word that matches a descriptor's literal bits, its wildcards 0, decodes to that identifier with all-zero
raw fields. -/
def Obligations.DecoderRoundTripOfZeroFields : Prop :=
  decode 0x0C00 = .ok (.add 0 0) ∧ decode 0x1C00 = .ok (.adc 0 0) ∧ decode 0x9600 = .ok (.adiw 0 0) ∧
    decode 0x2000 = .ok (.and 0 0) ∧ decode 0x7000 = .ok (.andi 0 0) ∧ decode 0x9405 = .ok (.asr 0) ∧
    decode 0x9408 = .ok (.bset 0) ∧ decode 0x9488 = .ok (.bclr 0) ∧ decode 0xF800 = .ok (.bld 0 0) ∧
    decode 0xFA00 = .ok (.bst 0 0) ∧ decode 0xF000 = .ok (.brbs 0 0) ∧ decode 0xF400 = .ok (.brbc 0 0)

/-- Words written out bit by bit from the templates of R56 decode to the instruction they stand for, one per family
(a sanity statement). -/
def Obligations.WrittenOutWordsDecode : Prop :=
  decode 0b0000110000010010 = .ok (.add 1 2) ∧ decode 0b0111101001011100 = .ok (.andi 5 0xAC) ∧
    decode 0b1001010101000101 = .ok (.asr 20) ∧ decode 0b1001010001101000 = .ok (.bset 6) ∧
    decode 0b1111101111110111 = .ok (.bst 31 7) ∧ decode 0b1111011111101001 = .ok (.brbc 0x7D 1)

/-! ## The flag engine (40_flag_engine.md) -/

/-- The definitions of C, V and H after an addition (R71, R74, R76), and what the spec infers from them: the bit
formulas, and V as leaving the signed range. -/
def Obligations.AdditionFlagFormulas : Prop :=
  ∀ (a b : Byte) (cin : Bool),
    let r := addResult a b cin
    let sum : Int := a.toInt + b.toInt + cin.toNat
    carryAdd a b cin = decide (a.toNat + b.toNat + cin.toNat > 255) ∧
    carryAdd a b cin = ((a.getLsbD 7 && b.getLsbD 7) || (b.getLsbD 7 && !r.getLsbD 7) || (!r.getLsbD 7 && a.getLsbD 7)) ∧
    overflowAdd a b r = (a.getLsbD 7 == b.getLsbD 7 && r.getLsbD 7 != a.getLsbD 7) ∧
    overflowAdd a b r =
      ((a.getLsbD 7 && b.getLsbD 7 && !r.getLsbD 7) || (!a.getLsbD 7 && !b.getLsbD 7 && r.getLsbD 7)) ∧
    overflowAdd a b r = decide (sum < -128 ∨ 127 < sum) ∧
    halfCarryAdd a b cin = decide (a.toNat % 16 + b.toNat % 16 + cin.toNat > 15) ∧
    halfCarryAdd a b cin =
      ((a.getLsbD 3 && b.getLsbD 3) || (b.getLsbD 3 && !r.getLsbD 3) || (!r.getLsbD 3 && a.getLsbD 3))

/-- The same for a subtraction (R78, R79, R80); the spec has V from general knowledge (G4; log 21). No instruction of the
block calls these functions. -/
def Obligations.SubtractionFlagFormulas : Prop :=
  ∀ (a b : Byte) (cin : Bool),
    let r := subResult a b cin
    let diff : Int := a.toInt - b.toInt - cin.toNat
    carrySub a b cin = decide ((a.toNat : Int) - b.toNat - cin.toNat < 0) ∧
    carrySub a b cin = ((!a.getLsbD 7 && b.getLsbD 7) || (b.getLsbD 7 && r.getLsbD 7) || (r.getLsbD 7 && !a.getLsbD 7)) ∧
    overflowSub a b r = (a.getLsbD 7 != b.getLsbD 7 && r.getLsbD 7 != a.getLsbD 7) ∧
    overflowSub a b r =
      ((a.getLsbD 7 && !b.getLsbD 7 && !r.getLsbD 7) || (!a.getLsbD 7 && b.getLsbD 7 && r.getLsbD 7)) ∧
    overflowSub a b r = decide (diff < -128 ∨ 127 < diff) ∧
    halfCarrySub a b cin = decide (((a.toNat % 16 : Nat) : Int) - (b.toNat % 16 : Nat) - cin.toNat < 0) ∧
    halfCarrySub a b cin =
      ((!a.getLsbD 3 && b.getLsbD 3) || (b.getLsbD 3 && r.getLsbD 3) || (r.getLsbD 3 && !a.getLsbD 3))

/-- The bit formulas and the signed range of ADIW's C and V (the half of R84 that the spec
infers). -/
def Obligations.WordAdditionFlagFormulas : Prop :=
  ∀ (x : OpWord) (K : BitVec 6),
    let r := wordResult x K
    let sum : Int := x.toInt + K.toNat
    carryWord x K = (!r.getLsbD 15 && x.getLsbD 15) ∧
    overflowWord x r = (!x.getLsbD 15 && r.getLsbD 15) ∧
    overflowWord x r = decide (sum < -32768 ∨ 32767 < sum)

/-! ## The instructions: encoding, result, flags, completion and frame, one statement each -/

/-- R90. -/
def Obligations.AddRunsAsSpecified : Prop :=
  ∀ (s : State) (d r : BitVec 5), s.cfg.WellFormed →
    let a := (s.reg d.toNat).toNat
    let b := (s.reg r.toNat).toNat
    decode (0b000011#6 ++ r.extractLsb' 4 1 ++ d ++ r.extractLsb' 0 4) = .ok (.add d r) ∧
    ∃ t, exec (.add d r) s = .next t ∧
      (t.reg d.toNat).toNat = (a + b) % 256 ∧
      t.flag .h = decide (a % 16 + b % 16 > 15) ∧
      t.flag .c = decide (a + b > 255) ∧
      t.flag .z = decide ((a + b) % 256 = 0) ∧
      t.flag .n = (t.reg d.toNat).getLsbD 7 ∧
      t.flag .v = (((s.reg d.toNat).getLsbD 7 == (s.reg r.toNat).getLsbD 7) &&
        ((t.reg d.toNat).getLsbD 7 != (s.reg d.toNat).getLsbD 7)) ∧
      t.flag .s = (t.flag .n ^^ t.flag .v) ∧
      UnchangedBut [d.toNat] [.h, .s, .v, .n, .z, .c] s t

/-- R91: the carry in is the C flag before the instruction. -/
def Obligations.AdcRunsAsSpecified : Prop :=
  ∀ (s : State) (d r : BitVec 5), s.cfg.WellFormed →
    let a := (s.reg d.toNat).toNat
    let b := (s.reg r.toNat).toNat
    let cin := if s.flag .c then 1 else 0
    decode (0b000111#6 ++ r.extractLsb' 4 1 ++ d ++ r.extractLsb' 0 4) = .ok (.adc d r) ∧
    ∃ t, exec (.adc d r) s = .next t ∧
      (t.reg d.toNat).toNat = (a + b + cin) % 256 ∧
      t.flag .h = decide (a % 16 + b % 16 + cin > 15) ∧
      t.flag .c = decide (a + b + cin > 255) ∧
      t.flag .z = decide ((a + b + cin) % 256 = 0) ∧
      t.flag .n = (t.reg d.toNat).getLsbD 7 ∧
      t.flag .v = (((s.reg d.toNat).getLsbD 7 == (s.reg r.toNat).getLsbD 7) &&
        ((t.reg d.toNat).getLsbD 7 != (s.reg d.toNat).getLsbD 7)) ∧
      t.flag .s = (t.flag .n ^^ t.flag .v) ∧
      UnchangedBut [d.toNat] [.h, .s, .v, .n, .z, .c] s t

/-- R92, whose operation and flags the spec supplies from general knowledge (D11, G3; log 13). `lo` is the low register
of the pair, `x` the pair's value before. -/
def Obligations.AdiwRunsAsSpecified : Prop :=
  ∀ (s : State) (d : BitVec 2) (K : BitVec 6), s.cfg.WellFormed →
    let lo := 24 + 2 * d.toNat
    let x := (s.reg (lo + 1)).toNat * 256 + (s.reg lo).toNat
    decode (0b10010110#8 ++ K.extractLsb' 4 2 ++ d ++ K.extractLsb' 0 4) = .ok (.adiw d K) ∧
    ∃ t, exec (.adiw d K) s = .next t ∧
      (t.reg (lo + 1)).toNat * 256 + (t.reg lo).toNat = (x + K.toNat) % 65536 ∧
      t.flag .c = decide (x + K.toNat > 65535) ∧
      t.flag .z = decide ((x + K.toNat) % 65536 = 0) ∧
      t.flag .n = (t.reg (lo + 1)).getLsbD 7 ∧
      t.flag .v = (!(s.reg (lo + 1)).getLsbD 7 && (t.reg (lo + 1)).getLsbD 7) ∧
      t.flag .s = (t.flag .n ^^ t.flag .v) ∧
      UnchangedBut [lo, lo + 1] [.s, .v, .n, .z, .c] s t

/-- R100. -/
def Obligations.AndRunsAsSpecified : Prop :=
  ∀ (s : State) (d r : BitVec 5), s.cfg.WellFormed →
    decode (0b001000#6 ++ r.extractLsb' 4 1 ++ d ++ r.extractLsb' 0 4) = .ok (.and d r) ∧
    ∃ t, exec (.and d r) s = .next t ∧
      t.reg d.toNat = s.reg d.toNat &&& s.reg r.toNat ∧
      t.flag .z = decide (t.reg d.toNat = 0) ∧
      t.flag .n = (t.reg d.toNat).getLsbD 7 ∧
      t.flag .v = false ∧
      t.flag .s = t.flag .n ∧
      UnchangedBut [d.toNat] [.s, .v, .n, .z] s t

/-- R101: the destination is one of R16..R31 (D12; log 14). -/
def Obligations.AndiRunsAsSpecified : Prop :=
  ∀ (s : State) (d : BitVec 4) (K : BitVec 8), s.cfg.WellFormed →
    let rd := 16 + d.toNat
    decode (0b0111#4 ++ K.extractLsb' 4 4 ++ d ++ K.extractLsb' 0 4) = .ok (.andi d K) ∧
    ∃ t, exec (.andi d K) s = .next t ∧
      t.reg rd = s.reg rd &&& K ∧
      t.flag .z = decide (t.reg rd = 0) ∧
      t.flag .n = (t.reg rd).getLsbD 7 ∧
      t.flag .v = false ∧
      t.flag .s = t.flag .n ∧
      UnchangedBut [rd] [.s, .v, .n, .z] s t

/-- R110, with its corner case that the result is the floor of half the signed value. The clause that S equals the new C
is the spec's own inference (R110 and R82 derive it). -/
def Obligations.AsrRunsAsSpecified : Prop :=
  ∀ (s : State) (d : BitVec 5), s.cfg.WellFormed →
    let a := s.reg d.toNat
    decode (0b1001010#7 ++ d ++ 0b0101#4) = .ok (.asr d) ∧
    ∃ t, exec (.asr d) s = .next t ∧
      (∀ j < 7, (t.reg d.toNat).getLsbD j = a.getLsbD (j + 1)) ∧
      (t.reg d.toNat).getLsbD 7 = a.getLsbD 7 ∧
      (t.reg d.toNat).toInt = a.toInt / 2 ∧
      t.flag .c = a.getLsbD 0 ∧
      t.flag .z = decide (t.reg d.toNat = 0) ∧
      t.flag .n = a.getLsbD 7 ∧
      t.flag .v = (t.flag .n ^^ t.flag .c) ∧
      t.flag .s = (t.flag .n ^^ t.flag .v) ∧
      t.flag .s = t.flag .c ∧
      UnchangedBut [d.toNat] [.s, .v, .n, .z, .c] s t

/-- R115. The clause that a second BSET leaves SREG the same is the spec's own inference (R115 derives it). -/
def Obligations.BsetRunsAsSpecified : Prop :=
  ∀ (s : State) (k : BitVec 3), s.cfg.WellFormed →
    decode (0b100101000#9 ++ k ++ 0b1000#4) = .ok (.bset k) ∧
    ∃ t, exec (.bset k) s = .next t ∧
      t.sreg = s.sreg ||| 1#8 <<< k.toNat ∧
      t.sreg.getLsbD k.toNat = true ∧
      UnchangedBut [] [Flag.ofIndex k] s t ∧
      ∃ u, exec (.bset k) t = .next u ∧ u.sreg = t.sreg

/-- R116, with the source's idempotence property. -/
def Obligations.BclrRunsAsSpecified : Prop :=
  ∀ (s : State) (k : BitVec 3), s.cfg.WellFormed →
    decode (0b100101001#9 ++ k ++ 0b1000#4) = .ok (.bclr k) ∧
    ∃ t, exec (.bclr k) s = .next t ∧
      t.sreg = s.sreg &&& ~~~(1#8 <<< k.toNat) ∧
      t.sreg.getLsbD k.toNat = false ∧
      UnchangedBut [] [Flag.ofIndex k] s t ∧
      ∃ u, exec (.bclr k) t = .next u ∧ u.sreg = t.sreg

/-- R120: no flag is written. -/
def Obligations.BldRunsAsSpecified : Prop :=
  ∀ (s : State) (d : BitVec 5) (b : BitVec 3), s.cfg.WellFormed →
    decode (0b1111100#7 ++ d ++ 0#1 ++ b) = .ok (.bld d b) ∧
    ∃ t, exec (.bld d b) s = .next t ∧
      (∀ j < 8, (t.reg d.toNat).getLsbD j = if j = b.toNat then s.flag .t else (s.reg d.toNat).getLsbD j) ∧
      t.sreg = s.sreg ∧
      UnchangedBut [d.toNat] [] s t

/-- R121: T only is written, and no register. -/
def Obligations.BstRunsAsSpecified : Prop :=
  ∀ (s : State) (d : BitVec 5) (b : BitVec 3), s.cfg.WellFormed →
    decode (0b1111101#7 ++ d ++ 0#1 ++ b) = .ok (.bst d b) ∧
    ∃ t, exec (.bst d b) s = .next t ∧
      t.flag .t = (s.reg d.toNat).getLsbD b.toNat ∧
      UnchangedBut [] [.t] s t

/-- R125: the handler owns the PC update. -/
def Obligations.BrbsRunsAsSpecified : Prop :=
  ∀ (s : State) (k : BitVec 7) (n : BitVec 3), s.cfg.WellFormed →
    decode (0b111100#6 ++ k ++ n) = .ok (.brbs k n) ∧
    ∃ t, exec (.brbs k n) s = .next t ∧
      (t.pc : Int) = (if s.sreg.getLsbD n.toNat = true then s.pc + k.toInt + 1 else s.pc + 1) % 2 ^ s.cfg.pcBits ∧
      t.sreg = s.sreg ∧ RestUnchanged s t ∧ DataUnchangedBut [] [] s t

/-- R126: the same with the polarity reversed. -/
def Obligations.BrbcRunsAsSpecified : Prop :=
  ∀ (s : State) (k : BitVec 7) (n : BitVec 3), s.cfg.WellFormed →
    decode (0b111101#6 ++ k ++ n) = .ok (.brbc k n) ∧
    ∃ t, exec (.brbc k n) s = .next t ∧
      (t.pc : Int) = (if s.sreg.getLsbD n.toNat = false then s.pc + k.toInt + 1 else s.pc + 1) % 2 ^ s.cfg.pcBits ∧
      t.sreg = s.sreg ∧ RestUnchanged s t ∧ DataUnchangedBut [] [] s t

/-- The ranges R127 infers: raw 0..63 are 0..63, raw 64..127 are -64..-1, and the displacement of the target is -63..+64. -/
def Obligations.BranchOffsetRange : Prop :=
  ∀ k : BitVec 7,
    (k.toNat ≤ 63 → branchOffset k = k.toNat) ∧ (64 ≤ k.toNat → branchOffset k = (k.toNat : Int) - 128) ∧
      -63 ≤ branchOffset k + 1 ∧ branchOffset k + 1 ≤ 64

/-- R64: what the four pseudo-instructions do, as the words they expand to. -/
def Obligations.PseudoInstructionsDoWhatTheySay : Prop :=
  ∀ s : State, s.cfg.WellFormed →
    (∀ d : BitVec 5, ∃ t, exec (.add d d) s = .next t ∧ (t.reg d.toNat).toNat = 2 * (s.reg d.toNat).toNat % 256 ∧
      t.flag .c = (s.reg d.toNat).getLsbD 7 ∧ t.flag .h = (s.reg d.toNat).getLsbD 3) ∧
    (∀ d : BitVec 5, ∃ t, exec (.adc d d) s = .next t ∧ (t.reg d.toNat).getLsbD 0 = s.flag .c ∧
      (∀ j < 7, (t.reg d.toNat).getLsbD (j + 1) = (s.reg d.toNat).getLsbD j) ∧
      t.flag .c = (s.reg d.toNat).getLsbD 7) ∧
    (∀ d : BitVec 5, ∃ t, exec (.and d d) s = .next t ∧ t.reg d.toNat = s.reg d.toNat ∧
      t.flag .z = decide (s.reg d.toNat = 0) ∧ t.flag .n = (s.reg d.toNat).getLsbD 7) ∧
    (∀ (d : BitVec 4) (K : BitVec 8), ∃ t, exec (.andi d (0xFF - K)) s = .next t ∧
      ∀ j < 8, (t.reg (16 + d.toNat)).getLsbD j = ((s.reg (16 + d.toNat)).getLsbD j && !K.getLsbD j))

/-! ## What no instruction does -/

/-- R85, R15: the frame of every instruction at once. Only the flags of the table of R85 and the registers of R58
change, program memory and engine stay, and only a branch moves the PC (R139).
That they do take the values of the table is what the twelve statements above say. -/
def Obligations.ExecChangesOnlyWhatTheTableNames : Prop :=
  ∀ (i : Instr) (s t : State), s.cfg.WellFormed → exec i s = .next t →
    RestUnchanged s t ∧ DataUnchangedBut (registersWritten i) (flagsDefined i) s t ∧ (ownsPc i = false → t.pc = s.pc)

/-- R16: T changes only under BST, BSET 6 and BCLR 6; I changes only under BSET 7 and BCLR 7 (R160). -/
def Obligations.OnlyBitStoresChangeTAndI : Prop :=
  ∀ (i : Instr) (s t : State), s.cfg.WellFormed → exec i s = .next t →
    (t.flag .t ≠ s.flag .t → (∃ d b, i = .bst d b) ∨ i = .bset 6 ∨ i = .bclr 6) ∧
    (t.flag .i ≠ s.flag .i → i = .bset 7 ∨ i = .bclr 7)

/-- R160, an inference of the spec: the I flag is stored and has no other effect. Two states that differ at most in I step alike, unless the
fetched word is a branch on I. -/
def Obligations.InterruptFlagHasNoEffect : Prop :=
  ∀ s t s' : State, AgreeExceptFlag .i s t → step s = .next s' →
    (∀ w k, fetch s = .ok w → decode w ≠ .ok (.brbs k 7) ∧ decode w ≠ .ok (.brbc k 7)) →
    ∃ t', step t = .next t' ∧ AgreeExceptFlag .i s' t'

/-- R43, an inference of the spec, with R20 and R2: over a whole run, no data cell but the registers and SREG changes, nor program memory, nor a
parameter. -/
def Obligations.RunKeepsOtherCellsAndProgram : Prop :=
  ∀ (k : Nat) (s t : State), Host.Core.run Sys2Proof.core k s = .next t →
    (∀ a, 32 ≤ a → a ≠ s.cfg.sregAddr → t.dmem.read a = s.dmem.read a) ∧ t.pmem = s.pmem ∧ t.cfg = s.cfg

/-- R61, an inference of the spec, and R153: no instruction raises InvalidOperand, in any state, and no step reports it from Ready. -/
def Obligations.NoInstructionRaisesInvalidOperand : Prop :=
  (∀ (i : Instr) (s : State) (detail : Nat), exec i s ≠ .fault (.invalidOperand detail)) ∧
    ∀ (s t : State) (detail : Nat), s.engine = .ready → executeOne s ≠ some (t, .error (.invalidOperand detail))

/-! ## The step -/

/-- R135: when the word at the PC decodes to `i`, a step is the handler of `i`, then the engine's PC update unless the
handler owns it (R139); a raise takes the fault (R155), and taking
it is a next state (the model's choice, log 7). -/
def Obligations.StepRunsTheDecodedInstruction : Prop :=
  ∀ (s : State) (i : Instr), s.cfg.WellFormed → s.engine = .ready → s.pc < s.cfg.progWords →
    decode (s.pmem.read (2 * s.pc + 1) ++ s.pmem.read (2 * s.pc)) = .ok i →
    step s = match exec i s with
      | .next t => .next (if ownsPc i then t else t.setPc (t.pc + 1))
      | .fault f => .next (enterHalted f s)
      | .refused r => .refused r

/-- In a well-formed configuration every Ready state has a next state: nothing is refused, whatever the word is.
A step that faults counts, since the state after it is Halted (the model's choice, log 7). -/
def Obligations.ReadyStepAlwaysAnswersNext : Prop :=
  ∀ s : State, s.cfg.WellFormed → s.engine = .ready → ∃ t, step s = .next t

/-- R136, an inference of the spec, with the payload of R32 and the entry of R155: AddressOutOfRange comes from the fetch alone, exactly when the
PC is not below PROG_WORDS. -/
def Obligations.FetchFaultsExactlyBeyondProgramMemory : Prop :=
  ∀ s : State, s.cfg.WellFormed → s.engine = .ready →
    ((∃ t a, executeOne s = some (t, .error (.addressOutOfRange a))) ↔ s.cfg.progWords ≤ s.pc) ∧
    (s.cfg.progWords ≤ s.pc →
      executeOne s = some ({ s with engine := .halted (.addressOutOfRange (2 * s.pc)) },
        .error (.addressOutOfRange (2 * s.pc)))) ∧
    (s.pc < s.cfg.progWords → fetch s = .ok (s.pmem.read (2 * s.pc + 1) ++ s.pmem.read (2 * s.pc)))

/-- R55, R151: a fetched word that no descriptor matches ends the step with UnknownOpcode of that word; the engine is
Halted, the PC and everything else stay. -/
def Obligations.UnmatchedWordHaltsWithUnknownOpcode : Prop :=
  ∀ (s : State) (w : OpWord), s.cfg.WellFormed → s.engine = .ready → fetch s = .ok w →
    (∀ row ∈ descriptorTable, row.candidate w = false) →
    executeOne s = some ({ s with engine := .halted (.unknownOpcode w) }, .error (.unknownOpcode w))

/-- In Halted `executeOne` changes no state and returns the recorded fault again (R142). That `step` answers it by the
outcome `fault` is the model's choice (log 7). -/
def Obligations.HaltedStepReturnsTheRecordedFault : Prop :=
  ∀ (s : State) (f : Fault), s.cfg.WellFormed → s.engine = .halted f →
    executeOne s = some (s, .error f) ∧ step s = .fault f

/-- No handler and no host operation but construction leaves Halted or replaces the recorded fault (R158). That `step`
in Halted answers no next state at all is the model's choice (log 7); R158 asks only that the state stay Halted. -/
def Obligations.NothingLeavesHalted : Prop :=
  ∀ (s : State) (f : Fault), s.engine = .halted f →
    (∀ t, step s ≠ .next t) ∧
    (∀ i t, exec i s = .next t → t.engine = .halted f) ∧
    (∀ offset word t, loadInstructionWord offset word s = .ok t → t.engine = .halted f) ∧
    (∀ l, (bulkLoad l s).1.engine = .halted f) ∧
    (∀ index v t, writeRegister index v s = .ok t → t.engine = .halted f)

/-- R141, an inference of the spec: a step that fails changes nothing but ENGINE and FAULT. -/
def Obligations.FailedStepChangesOnlyEngineAndFault : Prop :=
  ∀ (s t : State) (f : Fault), executeOne s = some (t, .error f) →
    t.engine = .halted f ∧ t.cfg = s.cfg ∧ t.dmem = s.dmem ∧ t.pmem = s.pmem ∧ t.pc = s.pc

/-- R22, R155: the engine after a call is Ready with no fault recorded when the call answered Ok, and Halted with
exactly the fault it answered otherwise. -/
def Obligations.ResultOfACallMatchesTheEngine : Prop :=
  ∀ (s t : State) (x : Except Fault Unit), executeOne s = some (t, x) →
    (x = .ok () ∧ t.engine = .ready ∧ t.faultRegister = none) ∨
      ∃ f, x = .error f ∧ t.engine = .halted f ∧ t.faultRegister = some f

/-- R139: exactly one PC update per execution. After a branch it is the branch's, after every other instruction it is
the engine's `PC + 1`; each is reduced modulo 2^PC_BITS. -/
def Obligations.EveryExecutionUpdatesThePcOnce : Prop :=
  ∀ s t : State, executeOne s = some (t, .ok ()) →
    ∃ w i, fetch s = .ok w ∧ decode w = .ok i ∧
      (t.pc : Int) = (match i with
        | .brbs k n => if s.sreg.getLsbD n.toNat = true then s.pc + k.toInt + 1 else s.pc + 1
        | .brbc k n => if s.sreg.getLsbD n.toNat = false then s.pc + k.toInt + 1 else s.pc + 1
        | _ => (s.pc : Int) + 1) % 2 ^ s.cfg.pcBits

/-- R140, an inference of the spec: for PC_BITS of at least 7, the only successful step that leaves the PC unchanged is a taken branch with
offset -1 (raw field 127). -/
def Obligations.OnlyATakenSelfBranchKeepsThePc : Prop :=
  ∀ s t : State, 7 ≤ s.cfg.pcBits → executeOne s = some (t, .ok ()) → t.pc = s.pc →
    ∃ w n, fetch s = .ok w ∧
      ((decode w = .ok (.brbs 127 n) ∧ s.sreg.getLsbD n.toNat = true) ∨
        (decode w = .ok (.brbc 127 n) ∧ s.sreg.getLsbD n.toNat = false))

/-- The invariant every step keeps, from every state that has it: the configuration is well formed, both memories are
canonical and inside their sizes, and the PC has PC_BITS bits (R3, R10, R19, R20). -/
def Obligations.StepKeepsTheInvariant : Prop :=
  ∀ s t : State, s.wf → step s = .next t → t.wf

/-- The state after reset has the invariant; its configuration and its zero memories are the model's choice
(log 2, log 3, log 4). -/
def Obligations.ResetHasTheInvariant : Prop :=
  State.reset.wf

/-- R24: after reset, and after every construction, the PC is 0, and the first fetch reads the program bytes 0 and 1. -/
def Obligations.ResetStartsAtWordZero : Prop :=
  State.reset.pc = 0 ∧
    ∀ (cfg : Config) (dmemInit pmemInit : Nat → Byte) (t : State), construct cfg dmemInit pmemInit = .next t →
      t.pc = 0 ∧ fetch t = .ok (pmemInit 1 ++ pmemInit 0)

/-- What the spec infers of the state after reset (R27): Ready, and no fault. -/
def Obligations.ResetIsReadyWithoutFault : Prop :=
  State.reset.engine = .ready ∧ State.reset.faultRegister = none

/-! ## Memory primitives and the host's operations -/

/-- R30: the bounds-checked access to data memory. -/
def Obligations.DataAccessIsBoundsChecked : Prop :=
  ∀ (s : State) (a : Nat) (v : Byte),
    (a < s.cfg.dataSize → memRead a s = .ok (s.dmem.read a) ∧
      ∃ t, memWrite a v s = .ok t ∧ memRead a t = .ok v ∧
        (∀ c, c ≠ a → t.dmem.read c = s.dmem.read c) ∧ RestUnchanged s t ∧ t.pc = s.pc) ∧
    (s.cfg.dataSize ≤ a → memRead a s = .error (.addressOutOfRange a) ∧
      memWrite a v s = .error (.addressOutOfRange a))

/-- R31: the flag primitives, for the eight masks `1 << k`. -/
def Obligations.FlagPrimitivesTouchOneBit : Prop :=
  ∀ (s : State) (k : BitVec 3) (b : Bool), s.cfg.WellFormed →
    readFlagMask (1#8 <<< k.toNat) s = .ok (s.sreg.getLsbD k.toNat) ∧
    ∃ t, setFlagMask (1#8 <<< k.toNat) b s = .ok t ∧
      t.sreg = (if b then s.sreg ||| 1#8 <<< k.toNat else s.sreg &&& ~~~(1#8 <<< k.toNat)) ∧
      UnchangedBut [] [Flag.ofIndex k] s t

/-- R32: the bounds-checked read of a program word, low byte at the lower address. -/
def Obligations.ProgramReadIsBoundsChecked : Prop :=
  ∀ (s : State) (w : Nat),
    (w < s.cfg.progWords → ∃ x, progRead w s = .ok x ∧
      x.toNat = (s.pmem.read (2 * w)).toNat + (s.pmem.read (2 * w + 1)).toNat * 256) ∧
    (s.cfg.progWords ≤ w → progRead w s = .error (.addressOutOfRange (2 * w)))

/-- R19: every PC write is reduced modulo 2^PC_BITS and changes nothing else; a PC that wrapped is no fault by itself,
the next fetch is bounds-checked. -/
def Obligations.PcWritesWrapAtItsWidth : Prop :=
  ∀ (s : State) (target : Int),
    let t := s.setPc target
    (t.pc : Int) = target % 2 ^ s.cfg.pcBits ∧ t.dmem = s.dmem ∧ RestUnchanged s t ∧
      (s.pc = 2 ^ s.cfg.pcBits - 1 → (s.setPc (s.pc + 1)).pc = 0) ∧
      (t.pc < s.cfg.progWords → ∃ w, fetch t = .ok w) ∧
      (s.cfg.progWords ≤ t.pc → fetch t = .error (.addressOutOfRange (2 * t.pc)))

/-- The loader's write, and that a bulk load is a sequence of such writes (R144). That a bulk load stops at the first
write that fails, with the rest not tried, is the model's choice (log 15). -/
def Obligations.LoaderWritesOneWord : Prop :=
  ∀ (s : State) (offset : Nat) (word : OpWord),
    bulkLoad [] s = (s, .ok ()) ∧
    (offset < s.cfg.progWords → ∃ t, loadInstructionWord offset word s = .ok t ∧
      t.pmem.read (2 * offset) = word.extractLsb' 0 8 ∧ t.pmem.read (2 * offset + 1) = word.extractLsb' 8 8 ∧
      (∀ a, a ≠ 2 * offset → a ≠ 2 * offset + 1 → t.pmem.read a = s.pmem.read a) ∧
      t.cfg = s.cfg ∧ t.dmem = s.dmem ∧ t.pc = s.pc ∧ t.engine = s.engine ∧
      ∀ rest, bulkLoad ((offset, word) :: rest) s = bulkLoad rest t) ∧
    (s.cfg.progWords ≤ offset →
      loadInstructionWord offset word s = .error (.addressOutOfRange (2 * offset)) ∧
      ∀ rest, bulkLoad ((offset, word) :: rest) s = (s, .error (.addressOutOfRange (2 * offset))))

/-- R41: the word the loader wrote is the word the next step fetches if its PC names it, and a fetch elsewhere is not
disturbed. -/
def Obligations.LoadedWordIsFetched : Prop :=
  ∀ (s t : State) (offset : Nat) (word : OpWord), loadInstructionWord offset word s = .ok t →
    (s.pc = offset → fetch t = .ok word) ∧ (s.pc ≠ offset → fetch t = fetch s)

/-- R145: the host's register access; the detail of a refusal is a free value (log 8). -/
def Obligations.HostRegisterAccess : Prop :=
  ∀ (s : State) (index : Nat) (v : Byte), s.cfg.WellFormed →
    (index ≤ 31 → readRegister index s = .ok (s.reg index) ∧
      ∃ t, writeRegister index v s = .ok t ∧ readRegister index t = .ok v ∧ UnchangedBut [index] [] s t) ∧
    (31 < index → (∃ detail, readRegister index s = .error (.invalidOperand detail)) ∧
      ∃ detail, writeRegister index v s = .error (.invalidOperand detail))

/-- R146 with the positions of R14: `readFlag` answers C, Z, N, V, S, H, T, I from bits 0 to 7 of SREG. -/
def Obligations.HostFlagRead : Prop :=
  ∀ s : State, s.cfg.WellFormed →
    readFlag .c s = .ok (s.sreg.getLsbD 0) ∧ readFlag .z s = .ok (s.sreg.getLsbD 1) ∧
    readFlag .n s = .ok (s.sreg.getLsbD 2) ∧ readFlag .v s = .ok (s.sreg.getLsbD 3) ∧
    readFlag .s s = .ok (s.sreg.getLsbD 4) ∧ readFlag .h s = .ok (s.sreg.getLsbD 5) ∧
    readFlag .t s = .ok (s.sreg.getLsbD 6) ∧ readFlag .i s = .ok (s.sreg.getLsbD 7)

/-- Construction fixes the parameters and puts every piece of state at its reset value, for any launch contents (R147,
R171). That the engine is Ready without a fault is the spec's own inference (R27); that an ill-formed configuration is
refused under a name of its own (R3) is log 9, the model's choice. -/
def Obligations.ConstructionIsTheReset : Prop :=
  ∀ (cfg : Config) (dmemInit pmemInit : Nat → Byte),
    (cfg.WellFormed → ∃ t, construct cfg dmemInit pmemInit = .next t ∧ t.cfg = cfg ∧ t.pc = 0 ∧ t.engine = .ready ∧
      t.faultRegister = none ∧ (∀ a < cfg.dataSize, t.dmem.read a = dmemInit a) ∧
      (∀ a < cfg.progBytes, t.pmem.read a = pmemInit a) ∧ t.wf) ∧
    (¬ cfg.WellFormed → construct cfg dmemInit pmemInit = .refused .illFormedConfiguration)
end

