-- ==== Sys2Proof/Laws/State.lean ====
section
/-! SUPPORT. One lemma per field per update of State, true by rfl. -/

namespace Sys2Proof.Machine

variable (s : State)

@[simp] theorem State.putByte_cfg (a : Nat) (v : Byte) : (s.putByte a v).cfg = s.cfg := rfl
@[simp] theorem State.putByte_dmem (a : Nat) (v : Byte) : (s.putByte a v).dmem = s.dmem.write a v := rfl
@[simp] theorem State.putByte_pmem (a : Nat) (v : Byte) : (s.putByte a v).pmem = s.pmem := rfl
@[simp] theorem State.putByte_pc (a : Nat) (v : Byte) : (s.putByte a v).pc = s.pc := rfl
@[simp] theorem State.putByte_engine (a : Nat) (v : Byte) : (s.putByte a v).engine = s.engine := rfl

@[simp] theorem State.setPc_cfg (t : Int) : (s.setPc t).cfg = s.cfg := rfl
@[simp] theorem State.setPc_dmem (t : Int) : (s.setPc t).dmem = s.dmem := rfl
@[simp] theorem State.setPc_pmem (t : Int) : (s.setPc t).pmem = s.pmem := rfl
@[simp] theorem State.setPc_pc (t : Int) : (s.setPc t).pc = (t % (2 ^ s.cfg.pcBits : Nat)).toNat := rfl
@[simp] theorem State.setPc_engine (t : Int) : (s.setPc t).engine = s.engine := rfl

@[simp] theorem enterHalted_cfg (f : Fault) : (enterHalted f s).cfg = s.cfg := rfl
@[simp] theorem enterHalted_dmem (f : Fault) : (enterHalted f s).dmem = s.dmem := rfl
@[simp] theorem enterHalted_pmem (f : Fault) : (enterHalted f s).pmem = s.pmem := rfl
@[simp] theorem enterHalted_pc (f : Fault) : (enterHalted f s).pc = s.pc := rfl
@[simp] theorem enterHalted_engine (f : Fault) : (enterHalted f s).engine = .halted f := rfl

@[simp] theorem State.withProgWord_cfg (w : Nat) (x : OpWord) : (s.withProgWord w x).cfg = s.cfg := rfl
@[simp] theorem State.withProgWord_dmem (w : Nat) (x : OpWord) : (s.withProgWord w x).dmem = s.dmem := rfl
@[simp] theorem State.withProgWord_pmem (w : Nat) (x : OpWord) :
    (s.withProgWord w x).pmem = (s.pmem.write (2 * w) (lowByte x)).write (2 * w + 1) (highByte x) := rfl
@[simp] theorem State.withProgWord_pc (w : Nat) (x : OpWord) : (s.withProgWord w x).pc = s.pc := rfl
@[simp] theorem State.withProgWord_engine (w : Nat) (x : OpWord) : (s.withProgWord w x).engine = s.engine := rfl

@[simp] theorem State.setPc_sreg (t : Int) : (s.setPc t).sreg = s.sreg := rfl
@[simp] theorem State.setPc_flag (t : Int) (f : Flag) : (s.setPc t).flag f = s.flag f := rfl
@[simp] theorem State.setPc_reg (t : Int) (n : Nat) : (s.setPc t).reg n = s.reg n := rfl
@[simp] theorem enterHalted_sreg (f : Fault) : (enterHalted f s).sreg = s.sreg := rfl
@[simp] theorem enterHalted_flag (f : Fault) (g : Flag) : (enterHalted f s).flag g = s.flag g := rfl

end Sys2Proof.Machine
end

