-- ==== Sys2Proof/Laws/Memory.lean ====
section
/-! SUPPORT. The laws of the byte memory: read after write, nothing else changes, and every operation keeps the
canonical form. -/

namespace Sys2Proof.Machine

@[simp] theorem Memory.read_cons (b : Nat) (v : Byte) (m : Memory) (a : Nat) :
    Memory.read ((b, v) :: m) a = if b = a then v else Memory.read m a := rfl

theorem Memory.read_erase_same (m : Memory) (a : Nat) : Memory.read (Memory.erase m a) a = Memory.unlisted := by
  induction m with
  | nil => rfl
  | cons c m ih =>
    obtain ⟨b, v⟩ := c
    by_cases h : b = a
    · simpa [Memory.erase, h] using ih
    · simpa [Memory.erase, h] using ih

theorem Memory.read_erase_other (m : Memory) {a c : Nat} (hne : c ≠ a) :
    Memory.read (Memory.erase m a) c = Memory.read m c := by
  induction m with
  | nil => rfl
  | cons x m ih =>
    obtain ⟨b, v⟩ := x
    by_cases h : b = a
    · subst h
      simpa [Memory.erase, Ne.symm hne] using ih
    · by_cases hc : b = c
      · subst hc
        simp [Memory.erase, h]
      · simpa [Memory.erase, h, hc] using ih

theorem Memory.read_insert_other (m : Memory) {a c : Nat} (v : Byte) (hne : c ≠ a) :
    Memory.read (Memory.insert m a v) c = Memory.read m c := by
  induction m with
  | nil => simp [Memory.insert, Memory.read, Ne.symm hne]
  | cons x m ih =>
    obtain ⟨b, w⟩ := x
    by_cases h : a < b
    · simp [Memory.insert, h, Ne.symm hne]
    · simp [Memory.insert, h, ih]

theorem Memory.read_insert_same (m : Memory) (a : Nat) (v : Byte) (h : ∀ c ∈ m, c.1 ≠ a) :
    Memory.read (Memory.insert m a v) a = v := by
  induction m with
  | nil => simp [Memory.insert]
  | cons x m ih =>
    obtain ⟨b, w⟩ := x
    have hb : b ≠ a := h (b, w) (by simp)
    by_cases hlt : a < b
    · simp [Memory.insert, hlt]
    · simpa [Memory.insert, hlt, hb] using ih (fun c hc => h c (by simp [hc]))

theorem Memory.erase_ne (m : Memory) (a : Nat) : ∀ c ∈ Memory.erase m a, c.1 ≠ a := by
  intro c hc
  simpa using (List.mem_filter.mp hc).2

/-- Read after write, at the same address, for every memory. -/
@[simp] theorem Memory.read_write_same (m : Memory) (a : Nat) (v : Byte) : (Memory.write m a v).read a = v := by
  unfold Memory.write
  split
  · next h => rw [Memory.read_erase_same, h]
  · exact Memory.read_insert_same _ _ _ (Memory.erase_ne m a)

/-- A write leaves every other address alone, for every memory. -/
theorem Memory.read_write_other (m : Memory) {a c : Nat} (v : Byte) (hne : c ≠ a) :
    (Memory.write m a v).read c = m.read c := by
  unfold Memory.write
  split
  · exact Memory.read_erase_other m hne
  · rw [Memory.read_insert_other _ v hne, Memory.read_erase_other m hne]

theorem Memory.read_write (m : Memory) (a c : Nat) (v : Byte) :
    (Memory.write m a v).read c = if c = a then v else m.read c := by
  by_cases h : c = a
  · simp [h]
  · simp [h, Memory.read_write_other m v h]

theorem Memory.erase_erase (m : Memory) (a : Nat) : Memory.erase (Memory.erase m a) a = Memory.erase m a := by
  simp [Memory.erase, List.filter_filter]

theorem Memory.erase_insert (m : Memory) (a : Nat) (v : Byte) :
    Memory.erase (Memory.insert m a v) a = Memory.erase m a := by
  induction m with
  | nil => simp [Memory.insert, Memory.erase]
  | cons x m ih =>
    obtain ⟨b, w⟩ := x
    by_cases hlt : a < b
    · simp [Memory.insert, hlt, Memory.erase]
    · by_cases hb : b = a
      · simpa [Memory.insert, hb, Memory.erase] using ih
      · simpa [Memory.insert, hlt, hb, Memory.erase] using ih

theorem Memory.erase_write (m : Memory) (a : Nat) (v : Byte) :
    Memory.erase (Memory.write m a v) a = Memory.erase m a := by
  unfold Memory.write
  split
  · exact Memory.erase_erase m a
  · rw [Memory.erase_insert, Memory.erase_erase]

/-- The second of two writes to one address is the one that counts, as data. -/
@[simp] theorem Memory.write_write_same (m : Memory) (a : Nat) (v w : Byte) :
    (Memory.write m a v).write a w = Memory.write m a w := by
  show Memory.write (Memory.write m a v) a w = Memory.write m a w
  rw [Memory.write, Memory.erase_write, ← Memory.write]

theorem Memory.mem_insert {m : Memory} {a : Nat} {v : Byte} {c : Host.Cell} (h : c ∈ Memory.insert m a v) :
    c = (a, v) ∨ c ∈ m := by
  induction m with
  | nil => simpa [Memory.insert] using h
  | cons x m ih =>
    obtain ⟨b, w⟩ := x
    by_cases hlt : a < b
    · simpa [Memory.insert, hlt] using h
    · simp only [Memory.insert, hlt, if_false, List.mem_cons] at h
      rcases h with h | h
      · simp [h]
      · rcases ih h with h | h <;> simp [h]

theorem Memory.erase_wf {m : Memory} (a : Nat) (h : Memory.wf m) : Memory.wf (Memory.erase m a) :=
  ⟨h.1.filter _, fun c hc => h.2 c (List.mem_filter.mp hc).1⟩

theorem Memory.insert_wf {m : Memory} {a : Nat} {v : Byte} (h : Memory.wf m) (hm : ∀ c ∈ m, c.1 ≠ a)
    (hv : v ≠ Memory.unlisted) : Memory.wf (Memory.insert m a v) := by
  refine ⟨?_, fun c hc => ?_⟩
  · have hp := h.1
    clear h
    induction m with
    | nil => simp [Memory.insert]
    | cons x m ih =>
      obtain ⟨b, w⟩ := x
      obtain ⟨hhead, htail⟩ := List.pairwise_cons.mp hp
      have hb : b ≠ a := hm (b, w) (by simp)
      by_cases hlt : a < b
      · simp only [Memory.insert, hlt, if_true]
        refine List.pairwise_cons.mpr ⟨fun c hc => ?_, hp⟩
        rcases List.mem_cons.mp hc with rfl | hc
        · exact hlt
        · exact lt_trans hlt (hhead c hc)
      · simp only [Memory.insert, hlt, if_false]
        refine List.pairwise_cons.mpr ⟨fun c hc => ?_, ih (fun c hc => hm c (by simp [hc])) htail⟩
        rcases Memory.mem_insert hc with rfl | hc
        · show b < a
          omega
        · exact hhead c hc
  · rcases Memory.mem_insert hc with rfl | hc
    · exact hv
    · exact h.2 c hc

/-- Every write keeps the canonical form. -/
theorem Memory.write_wf {m : Memory} (a : Nat) (v : Byte) (h : Memory.wf m) : Memory.wf (Memory.write m a v) := by
  unfold Memory.write
  split
  · exact Memory.erase_wf a h
  · next hv => exact Memory.insert_wf (Memory.erase_wf a h) (Memory.erase_ne m a) hv

theorem Memory.mem_write {m : Memory} {a : Nat} {v : Byte} {c : Host.Cell} (h : c ∈ Memory.write m a v) :
    c.1 = a ∨ c ∈ m := by
  unfold Memory.write at h
  split at h
  · exact .inr (List.mem_filter.mp h).1
  · rcases Memory.mem_insert h with h | h
    · exact .inl (by rw [h])
    · exact .inr (List.mem_filter.mp h).1

/-- A write inside a size keeps every listed address inside it. -/
theorem Memory.write_bounded {m : Memory} {size a : Nat} (v : Byte) (ha : a < size) (h : ∀ c ∈ m, c.1 < size) :
    ∀ c ∈ Memory.write m a v, c.1 < size := by
  intro c hc
  rcases Memory.mem_write hc with h' | h'
  · omega
  · exact h c h'

theorem Memory.read_ne_mem {m : Memory} {a : Nat} (h : m.read a ≠ Memory.unlisted) : (a, m.read a) ∈ m := by
  induction m with
  | nil => exact absurd rfl h
  | cons x m ih =>
    obtain ⟨b, w⟩ := x
    by_cases hb : b = a
    · simp [hb]
    · simp only [Memory.read_cons, hb, if_false] at h ⊢
      exact List.mem_cons_of_mem _ (ih h)

theorem Memory.read_of_mem {m : Memory} (hp : m.Pairwise (fun x y => x.1 < y.1)) {c : Host.Cell} (h : c ∈ m) :
    m.read c.1 = c.2 := by
  induction m with
  | nil => cases h
  | cons x m ih =>
    obtain ⟨b, w⟩ := x
    obtain ⟨hhead, htail⟩ := List.pairwise_cons.mp hp
    rcases List.mem_cons.mp h with rfl | h
    · simp
    · have : b < c.1 := hhead c h
      simp [show b ≠ c.1 by omega, ih htail h]

theorem Memory.mem_iff_read {m : Memory} (h : Memory.wf m) (c : Host.Cell) :
    c ∈ m ↔ m.read c.1 = c.2 ∧ c.2 ≠ Memory.unlisted := by
  constructor
  · exact fun hc => ⟨Memory.read_of_mem h.1 hc, h.2 c hc⟩
  · rintro ⟨hr, hne⟩
    have := Memory.read_ne_mem (m := m) (a := c.1) (by rw [hr]; exact hne)
    rwa [hr] at this

/-- Canonical memories with the same bytes are the same data. -/
theorem Memory.ext_read {m n : Memory} (hm : Memory.wf m) (hn : Memory.wf n) (h : ∀ a, m.read a = n.read a) :
    m = n := by
  have hlt : ∀ l : Memory, l.Pairwise (fun x y => x.1 < y.1) → l.Nodup := fun l hl =>
    hl.imp (fun {x y} hxy hEq => by rw [hEq] at hxy; exact lt_irrefl _ hxy)
  have hperm : m.Perm n := (List.perm_ext_iff_of_nodup (hlt m hm.1) (hlt n hn.1)).mpr fun c => by
    rw [Memory.mem_iff_read hm, Memory.mem_iff_read hn, h]
  exact hperm.eq_of_pairwise (fun a b _ _ hab hba => absurd hab (by omega)) hm.1 hn.1

theorem Memory.ofFun_wf (size : Nat) (f : Nat → Byte) : Memory.wf (Memory.ofFun size f) := by
  refine ⟨?_, fun c hc => ?_⟩
  · unfold Memory.ofFun
    refine List.Pairwise.filterMap _ ?_ (List.pairwise_lt_range (n := size))
    intro a b hab x hx y hy
    simp only [Option.ite_none_left_eq_some, Option.some.injEq] at hx hy
    rw [← hx.2, ← hy.2]
    exact hab
  · simp only [Memory.ofFun, List.mem_filterMap, Option.ite_none_left_eq_some, Option.some.injEq] at hc
    obtain ⟨a, -, hne, rfl⟩ := hc
    exact hne

theorem Memory.ofFun_bounded (size : Nat) (f : Nat → Byte) : ∀ c ∈ Memory.ofFun size f, c.1 < size := by
  intro c hc
  simp only [Memory.ofFun, List.mem_filterMap, List.mem_range, Option.ite_none_left_eq_some, Option.some.injEq] at hc
  obtain ⟨a, ha, -, rfl⟩ := hc
  exact ha

/-- A memory made of a launch argument holds that argument's bytes. -/
theorem Memory.read_ofFun {size a : Nat} (f : Nat → Byte) (h : a < size) : (Memory.ofFun size f).read a = f a := by
  by_cases hz : f a = Memory.unlisted
  · by_contra hne
    rw [hz] at hne
    have hm := Memory.read_ne_mem hne
    simp only [Memory.ofFun, List.mem_filterMap, Option.ite_none_left_eq_some, Option.some.injEq, Prod.mk.injEq] at hm
    obtain ⟨b, -, hb, rfl, -⟩ := hm
    exact hb hz
  · refine Memory.read_of_mem (Memory.ofFun_wf size f).1 (c := (a, f a)) ?_
    simp only [Memory.ofFun, List.mem_filterMap, List.mem_range]
    exact ⟨a, h, by simp [hz]⟩

end Sys2Proof.Machine
end

