-- ==== Sys2Proof/Laws/Ops.lean ====
section
/-! SUPPORT. One lemma per shared operation: in a well-formed configuration every register and flag access succeeds,
and what it answers. -/

namespace Sys2Proof.Machine

@[simp] theorem ok_bind {α β : Type} (a : α) (f : α → Except Fault β) : (Except.ok a >>= f) = f a := rfl
@[simp] theorem ok_pure {α : Type} (a : α) : (pure a : Except Fault α) = .ok a := rfl
@[simp] theorem answer_ok (t : State) : answer (.ok t) = .next t := rfl
@[simp] theorem answer_error (f : Fault) : answer (.error f) = .fault f := rfl

/-- A handler that answers next raised nothing. -/
theorem answer_next {x : Except Fault State} {t : State} (h : answer x = .next t) : x = .ok t := by
  cases x with
  | ok u => simpa using h
  | error f => simp at h

theorem bind_ok_iff {α β : Type} {x : Except Fault α} {f : α → Except Fault β} {b : β} :
    (x >>= f) = .ok b ↔ ∃ a, x = .ok a ∧ f a = .ok b := by
  cases x with
  | ok a => simp
  | error e => exact ⟨nofun, fun ⟨_, h, _⟩ => nomatch h⟩

variable {s : State}

theorem memRead_ok {a : Nat} (h : a < s.cfg.dataSize) : memRead a s = .ok (s.dmem.read a) := if_pos h

theorem memWrite_ok {a : Nat} (v : Byte) (h : a < s.cfg.dataSize) : memWrite a v s = .ok (s.putByte a v) := if_pos h

theorem memWrite_cases {a : Nat} {v : Byte} {t : State} (h : memWrite a v s = .ok t) :
    a < s.cfg.dataSize ∧ t = s.putByte a v := by
  unfold memWrite at h
  split at h
  · next ha => exact ⟨ha, by cases h; rfl⟩
  · cases h

theorem sregAddr_lt (h : s.cfg.WellFormed) : s.cfg.sregAddr < s.cfg.dataSize := h.2.2.1

theorem reg_lt_dataSize (h : s.cfg.WellFormed) {n : Nat} (hn : n < 32) : n < s.cfg.dataSize := by
  have := h.1
  omega

theorem reg_ne_sregAddr (h : s.cfg.WellFormed) {n : Nat} (hn : n < 32) : n ≠ s.cfg.sregAddr := by
  have := h.2.1
  omega

theorem readReg_ok (h : s.cfg.WellFormed) {n : Nat} (hn : n < 32) : readReg n s = .ok (s.reg n) :=
  memRead_ok (reg_lt_dataSize h hn)

theorem writeReg_ok (h : s.cfg.WellFormed) {n : Nat} (v : Byte) (hn : n < 32) :
    writeReg n v s = .ok (s.putByte n v) :=
  memWrite_ok v (reg_lt_dataSize h hn)

theorem readFlagMask_ok (h : s.cfg.WellFormed) (mask : Byte) :
    readFlagMask mask s = .ok ((s.sreg &&& mask) != 0) := by
  rw [readFlagMask, memRead_ok (sregAddr_lt h)]
  rfl

theorem setFlagMask_ok (h : s.cfg.WellFormed) (mask : Byte) (b : Bool) :
    setFlagMask mask b s = .ok (s.putByte s.cfg.sregAddr (withFlag mask b s.sreg)) := by
  rw [setFlagMask, memRead_ok (sregAddr_lt h), ok_bind, memWrite_ok _ (sregAddr_lt h)]
  rfl

theorem regNumber_lt (d : BitVec 5) : regNumber d < 32 := d.isLt

theorem upperRegNumber_lt (d : BitVec 4) : upperRegNumber d < 32 := by
  have := d.isLt
  unfold upperRegNumber
  omega

theorem pairLowNumber_lt (d : BitVec 2) : pairLowNumber d + 1 < 32 := by
  have := d.isLt
  unfold pairLowNumber
  omega

/-! The observations after one byte write. -/

@[simp] theorem State.putByte_putByte_same (a : Nat) (v w : Byte) : (s.putByte a v).putByte a w = s.putByte a w := by
  simp [State.putByte]

@[simp] theorem State.reg_putByte_same (n : Nat) (v : Byte) : (s.putByte n v).reg n = v :=
  Memory.read_write_same _ _ _

theorem State.reg_putByte_other {a n : Nat} (v : Byte) (h : n ≠ a) : (s.putByte a v).reg n = s.reg n :=
  Memory.read_write_other _ v h

@[simp] theorem State.sreg_putByte_sreg (v : Byte) : (s.putByte s.cfg.sregAddr v).sreg = v :=
  Memory.read_write_same _ _ _

theorem State.sreg_putByte_other {a : Nat} (v : Byte) (h : a ≠ s.cfg.sregAddr) : (s.putByte a v).sreg = s.sreg :=
  Memory.read_write_other _ v (Ne.symm h)

/-- The mask of bit index `k` has exactly bit `k` (R14, R31). -/
theorem flagMask_getLsbD (k j : Nat) (hj : j < 8) : (flagMask k).getLsbD j = decide (j = k) := by
  rw [flagMask, BitVec.getLsbD_shiftLeft, BitVec.getLsbD_one]
  by_cases h : j = k
  · simp [h, h ▸ hj]
  · rcases Nat.lt_or_ge j k with h' | h'
    · simp [h, h']
    · have : j - k ≠ 0 := by omega
      simp [h, this]

/-- `setFlag` changes exactly the masked bit (R31). -/
theorem withFlag_getLsbD (x : Byte) (b : Bool) (k j : Nat) (hj : j < 8) :
    (withFlag (flagMask k) b x).getLsbD j = if j = k then b else x.getLsbD j := by
  cases b
  · show (x &&& ~~~flagMask k).getLsbD j = _
    rw [BitVec.getLsbD_and, BitVec.getLsbD_not, flagMask_getLsbD _ _ hj]
    by_cases h : j = k
    · simp [h]
    · rw [if_neg h]
      simp [h, hj]
  · show (x ||| flagMask k).getLsbD j = _
    rw [BitVec.getLsbD_or, flagMask_getLsbD _ _ hj]
    by_cases h : j = k
    · simp [h]
    · rw [if_neg h]
      simp [h]

/-- The flag at a bit index tested with its mask is that bit of SREG (R31). -/
theorem and_flagMask (x : Byte) (k : Nat) (h : k < 8) : ((x &&& flagMask k) != 0) = x.getLsbD k := by
  have hbit : ∀ j < 8, (x &&& flagMask k).getLsbD j = (x.getLsbD j && decide (j = k)) := fun j hj => by
    rw [BitVec.getLsbD_and, flagMask_getLsbD _ _ hj]
  cases hx : x.getLsbD k
  · have : x &&& flagMask k = 0 := BitVec.eq_of_getLsbD_eq fun j hj => by
      rw [hbit j hj]
      by_cases hjk : j = k
      · simp [hjk, hx]
      · simp [hjk]
    simp [this]
  · have hne : x &&& flagMask k ≠ 0 := fun h0 => by
      have := hbit k h
      simp [h0, hx] at this
    simpa using hne

theorem Flag.bit_lt (f : Flag) : f.bit < 8 := by cases f <;> decide

theorem Flag.bit_injective {f g : Flag} (h : f.bit = g.bit) : f = g := by
  cases f <;> cases g <;> first | rfl | cases h

theorem Flag.ofIndex_bit (k : BitVec 3) : (Flag.ofIndex k).bit = k.toNat := by
  revert k
  decide

theorem readFlagMask_flag (h : s.cfg.WellFormed) (f : Flag) : readFlagMask f.mask s = .ok (s.flag f) := by
  rw [readFlagMask_ok h, Flag.mask, and_flagMask _ _ f.bit_lt]
  rfl

theorem flagMask_index (k : BitVec 3) : flagMask k.toNat = (Flag.ofIndex k).mask := by
  rw [Flag.mask, Flag.ofIndex_bit]

end Sys2Proof.Machine
end

