-- ==== Sys2Proof/Laws/Flags.lean ====
section
/-! SUPPORT. What storing a group of flags does to SREG, said once. -/

namespace Sys2Proof.Machine

/-- The SREG byte after a group of flags is stored in it. -/
def withFlags : List (Flag × Bool) → Byte → Byte
  | [], x => x
  | (f, b) :: rest, x => withFlags rest (withFlag f.mask b x)

theorem setFlags_cons_ok {s : State} (h : s.cfg.WellFormed) (f : Flag) (b : Bool) (rest : List (Flag × Bool)) :
    setFlags ((f, b) :: rest) s = .ok (s.putByte s.cfg.sregAddr (withFlags ((f, b) :: rest) s.sreg)) := by
  induction rest generalizing s f b with
  | nil => simp [setFlags, setFlagMask_ok h, withFlags]
  | cons x rest ih =>
    obtain ⟨g, c⟩ := x
    rw [setFlags, setFlagMask_ok h, ok_bind, ih (by simpa using h)]
    simp [withFlags]

/-- A register write and then a group of flags. -/
theorem commit_ok {s : State} (h : s.cfg.WellFormed) {n : Nat} (hn : n < 32) (result : Byte) (f : Flag) (b : Bool)
    (rest : List (Flag × Bool)) :
    commit n result ((f, b) :: rest) s =
      .ok ((s.putByte n result).putByte s.cfg.sregAddr (withFlags ((f, b) :: rest) s.sreg)) := by
  rw [commit, writeReg_ok h result hn, ok_bind, setFlags_cons_ok (by simpa using h),
    State.sreg_putByte_other _ (reg_ne_sregAddr h hn)]
  rfl

theorem withFlag_flag (x : Byte) (b : Bool) (f g : Flag) :
    (withFlag f.mask b x).getLsbD g.bit = if g = f then b else x.getLsbD g.bit := by
  rw [Flag.mask, withFlag_getLsbD _ _ _ _ g.bit_lt]
  by_cases h : g = f
  · simp [h]
  · have : g.bit ≠ f.bit := fun e => h (Flag.bit_injective e)
    simp [h, this]

/-- A flag that no entry of the group names keeps its value. -/
theorem withFlags_other (l : List (Flag × Bool)) (x : Byte) (g : Flag) (h : g ∉ l.map Prod.fst) :
    (withFlags l x).getLsbD g.bit = x.getLsbD g.bit := by
  induction l generalizing x with
  | nil => rfl
  | cons y l ih =>
    obtain ⟨f, b⟩ := y
    simp only [List.map_cons, List.mem_cons, not_or] at h
    rw [withFlags, ih _ h.2, withFlag_flag]
    simp [h.1]

/-- A flag that the group names once holds the value stored. -/
theorem withFlags_mem (l : List (Flag × Bool)) (x : Byte) (g : Flag) (b : Bool) (hn : (l.map Prod.fst).Nodup)
    (h : (g, b) ∈ l) : (withFlags l x).getLsbD g.bit = b := by
  induction l generalizing x with
  | nil => cases h
  | cons y l ih =>
    obtain ⟨f, c⟩ := y
    simp only [List.map_cons, List.nodup_cons] at hn
    rcases List.mem_cons.mp h with h | h
    · cases h
      rw [withFlags, withFlags_other _ _ _ hn.1, withFlag_flag]
      simp
    · exact ih _ hn.2 h

/-- The flags of a state whose SREG byte was just written. -/
theorem State.flag_putByte_sreg (s : State) (x : Byte) (f : Flag) :
    (s.putByte s.cfg.sregAddr x).flag f = x.getLsbD f.bit := by
  rw [State.flag, State.sreg_putByte_sreg]

theorem State.flag_putByte_other {s : State} {a : Nat} (v : Byte) (h : a ≠ s.cfg.sregAddr) (f : Flag) :
    (s.putByte a v).flag f = s.flag f := by
  rw [State.flag, State.sreg_putByte_other v h, State.flag]

/-! The state after a register write and a group of flags, and after a group of flags alone. -/

section
variable {s : State} (h : s.cfg.WellFormed) {n : Nat} (hn : n < 32) (v x : Byte)
include h hn

theorem commit_reg : ((s.putByte n v).putByte s.cfg.sregAddr x).reg n = v := by
  rw [State.reg_putByte_other _ (reg_ne_sregAddr h hn), State.reg_putByte_same]

omit h hn in
theorem commit_flag (f : Flag) : ((s.putByte n v).putByte s.cfg.sregAddr x).flag f = x.getLsbD f.bit :=
  State.flag_putByte_sreg (s.putByte n v) x f

omit h hn in
theorem commit_frame (l : List (Flag × Bool)) :
    UnchangedBut [n] (l.map Prod.fst) s ((s.putByte n v).putByte s.cfg.sregAddr (withFlags l s.sreg)) := by
  refine ⟨⟨rfl, rfl, rfl⟩, rfl, fun a ha hs => ?_, fun f hf => ?_⟩
  · rw [State.putByte_dmem, Memory.read_write_other _ _ hs, State.putByte_dmem,
      Memory.read_write_other _ _ (by simpa using ha)]
  · rw [commit_flag, withFlags_other _ _ _ hf]
    rfl

end

/-- A flag the group names holds the value stored. -/
theorem commit_flag_mem (s : State) (n : Nat) (v : Byte) {l : List (Flag × Bool)} (hn : (l.map Prod.fst).Nodup)
    {f : Flag} {b : Bool} (hm : (f, b) ∈ l) :
    ((s.putByte n v).putByte s.cfg.sregAddr (withFlags l s.sreg)).flag f = b := by
  rw [commit_flag, withFlags_mem l _ f b hn hm]

theorem additionFlags_nodup (a b : Byte) (cin : Bool) (r : Byte) :
    ((additionFlags a b cin r).map Prod.fst).Nodup := by
  show [Flag.h, .s, .v, .n, .z, .c].Nodup
  decide

theorem logicFlags_nodup (r : Byte) : ((logicFlags r).map Prod.fst).Nodup := by
  show [Flag.s, .v, .n, .z].Nodup
  decide

theorem shiftFlags_nodup (a r : Byte) : ((shiftFlags a r).map Prod.fst).Nodup := by
  show [Flag.s, .v, .n, .z, .c].Nodup
  decide

theorem wordFlags_nodup (x : OpWord) (K : BitVec 6) (r : OpWord) : ((wordFlags x K r).map Prod.fst).Nodup := by
  show [Flag.s, .v, .n, .z, .c].Nodup
  decide

theorem setFlags_frame (s : State) (l : List (Flag × Bool)) :
    UnchangedBut [] (l.map Prod.fst) s (s.putByte s.cfg.sregAddr (withFlags l s.sreg)) := by
  refine ⟨⟨rfl, rfl, rfl⟩, rfl, fun a _ hs => ?_, fun f hf => ?_⟩
  · rw [State.putByte_dmem, Memory.read_write_other _ _ hs]
  · rw [State.flag_putByte_sreg, withFlags_other _ _ _ hf]
    rfl

/-- One flag is the group of that flag alone. -/
theorem setFlag_frame (s : State) (f : Flag) (b : Bool) :
    UnchangedBut [] [f] s (s.putByte s.cfg.sregAddr (withFlag f.mask b s.sreg)) :=
  setFlags_frame s [(f, b)]

end Sys2Proof.Machine
end

