-- ==== Sys2Proof/Laws/Exec.lean ====
section
/-! SUPPORT. One equation per handler: in a well-formed configuration it answers next, and this is the next state. Each
unfolds its handler once, so that later proofs cite it. -/

namespace Sys2Proof.Machine

variable {s : State}

theorem addRegisters_ok (h : s.cfg.WellFormed) {d r : Nat} (hd : d < 32) (hr : r < 32) (cin : Bool) :
    addRegisters d r cin s =
      .ok ((s.putByte d (addResult (s.reg d) (s.reg r) cin)).putByte s.cfg.sregAddr
        (withFlags (additionFlags (s.reg d) (s.reg r) cin (addResult (s.reg d) (s.reg r) cin)) s.sreg)) := by
  rw [addRegisters, readReg_ok h hd, ok_bind, readReg_ok h hr, ok_bind]
  exact commit_ok h hd _ _ _ _

theorem execAdd_eq (h : s.cfg.WellFormed) (d r : BitVec 5) :
    execAdd d r s = .next ((s.putByte d.toNat (addResult (s.reg d.toNat) (s.reg r.toNat) false)).putByte s.cfg.sregAddr
      (withFlags (additionFlags (s.reg d.toNat) (s.reg r.toNat) false
        (addResult (s.reg d.toNat) (s.reg r.toNat) false)) s.sreg)) := by
  rw [execAdd, addRegisters_ok h (regNumber_lt d) (regNumber_lt r)]
  rfl

theorem execAdc_eq (h : s.cfg.WellFormed) (d r : BitVec 5) :
    execAdc d r s = .next ((s.putByte d.toNat (addResult (s.reg d.toNat) (s.reg r.toNat) (s.flag .c))).putByte
      s.cfg.sregAddr (withFlags (additionFlags (s.reg d.toNat) (s.reg r.toNat) (s.flag .c)
        (addResult (s.reg d.toNat) (s.reg r.toNat) (s.flag .c))) s.sreg)) := by
  rw [execAdc, readFlagMask_flag h, ok_bind, addRegisters_ok h (regNumber_lt d) (regNumber_lt r)]
  rfl

theorem readPair_ok (h : s.cfg.WellFormed) {lo : Nat} (hlo : lo + 1 < 32) :
    readPair lo s = .ok (s.reg (lo + 1) ++ s.reg lo) := by
  rw [readPair, readReg_ok h (by omega), ok_bind, readReg_ok h hlo]
  rfl

theorem writePair_ok (h : s.cfg.WellFormed) {lo : Nat} (v : OpWord) (hlo : lo + 1 < 32) :
    writePair lo v s = .ok ((s.putByte lo (lowByte v)).putByte (lo + 1) (highByte v)) := by
  rw [writePair, writeReg_ok h _ (by omega), ok_bind, writeReg_ok (by simpa using h) _ hlo]

theorem execAdiw_eq (h : s.cfg.WellFormed) (d : BitVec 2) (K : BitVec 6) :
    execAdiw d K s =
      let lo := 24 + 2 * d.toNat
      let x : OpWord := s.reg (lo + 1) ++ s.reg lo
      let res := wordResult x K
      .next (((s.putByte lo (lowByte res)).putByte (lo + 1) (highByte res)).putByte s.cfg.sregAddr
        (withFlags (wordFlags x K res) s.sreg)) := by
  have hlo := pairLowNumber_lt d
  rw [execAdiw, readPair_ok h hlo, ok_bind]
  show answer (writePair _ _ s >>= _) = _
  rw [writePair_ok h _ hlo, ok_bind]
  show answer (setFlags (_ :: _) _) = _
  rw [setFlags_cons_ok (by simpa using h), State.sreg_putByte_other, State.sreg_putByte_other]
  · rfl
  · exact reg_ne_sregAddr h (by omega)
  · exact reg_ne_sregAddr h hlo

theorem execAnd_eq (h : s.cfg.WellFormed) (d r : BitVec 5) :
    execAnd d r s = .next ((s.putByte d.toNat (s.reg d.toNat &&& s.reg r.toNat)).putByte s.cfg.sregAddr
      (withFlags (logicFlags (s.reg d.toNat &&& s.reg r.toNat)) s.sreg)) := by
  rw [execAnd, readReg_ok h (regNumber_lt d), ok_bind, readReg_ok h (regNumber_lt r), ok_bind]
  exact congrArg answer (commit_ok h (regNumber_lt d) _ _ _ _)

theorem execAndi_eq (h : s.cfg.WellFormed) (d : BitVec 4) (K : BitVec 8) :
    execAndi d K s = .next ((s.putByte (16 + d.toNat) (s.reg (16 + d.toNat) &&& K)).putByte s.cfg.sregAddr
      (withFlags (logicFlags (s.reg (16 + d.toNat) &&& K)) s.sreg)) := by
  rw [execAndi, readReg_ok h (upperRegNumber_lt d), ok_bind]
  exact congrArg answer (commit_ok h (upperRegNumber_lt d) _ _ _ _)

theorem execAsr_eq (h : s.cfg.WellFormed) (d : BitVec 5) :
    execAsr d s =
      let a := s.reg d.toNat
      let res := (a >>> 1) ||| (a &&& 0x80)
      .next ((s.putByte d.toNat res).putByte s.cfg.sregAddr (withFlags (shiftFlags a res) s.sreg)) := by
  rw [execAsr, readReg_ok h (regNumber_lt d), ok_bind]
  exact congrArg answer (commit_ok h (regNumber_lt d) _ _ _ _)

theorem execBset_eq (h : s.cfg.WellFormed) (k : BitVec 3) :
    execBset k s = .next (s.putByte s.cfg.sregAddr (withFlag (Flag.ofIndex k).mask true s.sreg)) := by
  rw [execBset, flagMask_index, setFlagMask_ok h]
  rfl

theorem execBclr_eq (h : s.cfg.WellFormed) (k : BitVec 3) :
    execBclr k s = .next (s.putByte s.cfg.sregAddr (withFlag (Flag.ofIndex k).mask false s.sreg)) := by
  rw [execBclr, flagMask_index, setFlagMask_ok h]
  rfl

theorem execBld_eq (h : s.cfg.WellFormed) (d : BitVec 5) (b : BitVec 3) :
    execBld d b s = .next (s.putByte d.toNat
      (if s.flag .t then s.reg d.toNat ||| 1#8 <<< b.toNat else s.reg d.toNat &&& ~~~(1#8 <<< b.toNat))) := by
  rw [execBld, readReg_ok h (regNumber_lt d), ok_bind, readFlagMask_flag h, ok_bind]
  exact congrArg answer (writeReg_ok h _ (regNumber_lt d))

theorem execBst_eq (h : s.cfg.WellFormed) (d : BitVec 5) (b : BitVec 3) :
    execBst d b s = .next (s.putByte s.cfg.sregAddr
      (withFlag Flag.t.mask ((s.reg d.toNat).getLsbD b.toNat) s.sreg)) := by
  rw [execBst, readReg_ok h (regNumber_lt d), ok_bind, setFlagMask_ok h]
  rfl

theorem execBrbs_eq (h : s.cfg.WellFormed) (k : BitVec 7) (n : BitVec 3) :
    execBrbs k n s = .next (branchIf (s.flag (Flag.ofIndex n)) k s) := by
  rw [execBrbs, flagMask_index, readFlagMask_flag h]
  rfl

theorem execBrbc_eq (h : s.cfg.WellFormed) (k : BitVec 7) (n : BitVec 3) :
    execBrbc k n s = .next (branchIf (!s.flag (Flag.ofIndex n)) k s) := by
  rw [execBrbc, flagMask_index, readFlagMask_flag h]
  rfl

end Sys2Proof.Machine
end

