-- ==== Sys2Proof/Laws/Contained.lean ====
section
/-! SUPPORT. What every handler can do at all, in any configuration, well formed or not: it keeps the parameters,
program memory and the engine, it raises nothing but AddressOutOfRange, and it refuses nothing. -/

namespace Sys2Proof.Machine

/-- A handler's answer from `s` that keeps the parameters, program memory and the engine, or raises AddressOutOfRange. -/
def Contained (s : State) : Except Fault State → Prop
  | .ok t => RestUnchanged s t
  | .error f => ∃ a, f = .addressOutOfRange a

/-- A read that answers a value or raises AddressOutOfRange. -/
def RaisesOnlyRange {α : Type} : Except Fault α → Prop
  | .ok _ => True
  | .error f => ∃ a, f = .addressOutOfRange a

variable {s : State}

theorem Contained.next (x : State) (h : RestUnchanged s x) : Contained s (.ok x) := h

theorem Contained.read {α : Type} {x : Except Fault α} {f : α → Except Fault State} (hx : RaisesOnlyRange x)
    (hf : ∀ v, Contained s (f v)) : Contained s (x >>= f) := by
  cases x with
  | ok v => exact hf v
  | error e => exact hx

theorem Contained.write {x : Except Fault State} {f : State → Except Fault State} (hx : Contained s x)
    (hf : ∀ t, Contained t (f t)) : Contained s (x >>= f) := by
  cases x with
  | error e => exact hx
  | ok t =>
    have h := hf t
    show Contained s (f t)
    cases hy : f t with
    | error e => rw [hy] at h; exact h
    | ok u =>
      rw [hy] at h
      exact ⟨h.1.trans hx.1, h.2.1.trans hx.2.1, h.2.2.trans hx.2.2⟩

theorem memRead_range (a : Nat) (s : State) : RaisesOnlyRange (memRead a s) := by
  unfold memRead
  split
  · trivial
  · exact ⟨a, rfl⟩

theorem memWrite_contained (a : Nat) (v : Byte) (s : State) : Contained s (memWrite a v s) := by
  unfold memWrite
  split
  · exact ⟨rfl, rfl, rfl⟩
  · exact ⟨a, rfl⟩

theorem readFlagMask_range (mask : Byte) (s : State) : RaisesOnlyRange (readFlagMask mask s) := by
  have h := memRead_range s.cfg.sregAddr s
  unfold readFlagMask
  cases hx : memRead s.cfg.sregAddr s with
  | ok v => trivial
  | error f => rw [hx] at h; exact h

theorem readPair_range (lo : Nat) (s : State) : RaisesOnlyRange (readPair lo s) := by
  have h1 := memRead_range lo s
  have h2 := memRead_range (lo + 1) s
  unfold readPair readReg
  cases hx : memRead lo s with
  | error f => rw [hx] at h1; exact h1
  | ok v =>
    cases hy : memRead (lo + 1) s with
    | error f => rw [hy] at h2; exact h2
    | ok w => trivial

theorem setFlagMask_contained (mask : Byte) (b : Bool) (s : State) : Contained s (setFlagMask mask b s) :=
  .read (memRead_range _ s) fun _ => memWrite_contained _ _ s

theorem setFlags_contained (l : List (Flag × Bool)) (s : State) : Contained s (setFlags l s) := by
  induction l generalizing s with
  | nil => exact ⟨rfl, rfl, rfl⟩
  | cons x l ih => exact .write (setFlagMask_contained _ _ s) fun t => ih t

theorem commit_contained (n : Nat) (v : Byte) (l : List (Flag × Bool)) (s : State) : Contained s (commit n v l s) :=
  .write (memWrite_contained n v s) fun t => setFlags_contained l t

theorem writePair_contained (lo : Nat) (v : OpWord) (s : State) : Contained s (writePair lo v s) :=
  .write (memWrite_contained _ _ s) fun t => memWrite_contained _ _ t

theorem addRegisters_contained (d r : Nat) (cin : Bool) (s : State) : Contained s (addRegisters d r cin s) :=
  .read (memRead_range d s) fun _ => .read (memRead_range r s) fun _ => commit_contained _ _ _ s

theorem branchIf_rest (b : Bool) (k : BitVec 7) (s : State) : RestUnchanged s (branchIf b k s) := by
  cases b <;> exact ⟨rfl, rfl, rfl⟩

/-- Every handler is a contained computation. -/
theorem exec_contained (i : Instr) (s : State) : ∃ x, exec i s = answer x ∧ Contained s x := by
  cases i with
  | add d r => exact ⟨_, rfl, addRegisters_contained _ _ _ s⟩
  | adc d r => exact ⟨_, rfl, .read (readFlagMask_range _ s) fun _ => addRegisters_contained _ _ _ s⟩
  | adiw d K =>
    exact ⟨_, rfl, .read (readPair_range _ s) fun _ => .write (writePair_contained _ _ s) fun t => setFlags_contained _ t⟩
  | and d r =>
    exact ⟨_, rfl, .read (memRead_range _ s) fun _ => .read (memRead_range _ s) fun _ => commit_contained _ _ _ s⟩
  | andi d K => exact ⟨_, rfl, .read (memRead_range _ s) fun _ => commit_contained _ _ _ s⟩
  | asr d => exact ⟨_, rfl, .read (memRead_range _ s) fun _ => commit_contained _ _ _ s⟩
  | bset k => exact ⟨_, rfl, setFlagMask_contained _ _ s⟩
  | bclr k => exact ⟨_, rfl, setFlagMask_contained _ _ s⟩
  | bld d b =>
    exact ⟨_, rfl, .read (memRead_range _ s) fun _ => .read (readFlagMask_range _ s) fun _ => memWrite_contained _ _ s⟩
  | bst d b => exact ⟨_, rfl, .read (memRead_range _ s) fun _ => setFlagMask_contained _ _ s⟩
  | brbs k n => exact ⟨_, rfl, .read (readFlagMask_range _ s) fun b => .next _ (branchIf_rest _ k s)⟩
  | brbc k n => exact ⟨_, rfl, .read (readFlagMask_range _ s) fun b => .next _ (branchIf_rest _ k s)⟩

/-- What `exec` can answer: a next state that keeps the rest, or AddressOutOfRange; never a refusal. -/
theorem exec_cases (i : Instr) (s : State) :
    (∃ t, exec i s = .next t ∧ RestUnchanged s t) ∨ ∃ a, exec i s = .fault (.addressOutOfRange a) := by
  obtain ⟨x, hx, hc⟩ := exec_contained i s
  cases x with
  | ok t => exact .inl ⟨t, hx, hc⟩
  | error f =>
    obtain ⟨a, rfl⟩ := hc
    exact .inr ⟨a, hx⟩

end Sys2Proof.Machine
end

