-- ==== Sys2Proof/Laws/PerInstr.lean ====
section
/-! SUPPORT. The per-instruction family LiteralBits: the encoder sets exactly the literal bits of the instruction's own
descriptor (R52, R56), whatever its fields. -/

namespace Sys2Proof.Laws.LiteralBits

/-- The word of `i` is a candidate of the row of the descriptor table that carries `i`'s identifier. -/
def Statement (i : Instr) : Prop :=
  ∃ row ∈ descriptorTable, row.id = instrId i ∧ row.candidate (encode i) = true

theorem add (d r : BitVec 5) : Statement (.add d r) :=
  ⟨descriptorTable[0], by simp [descriptorTable, aluDescriptors], rfl, by revert d r; decide +kernel⟩

theorem adc (d r : BitVec 5) : Statement (.adc d r) :=
  ⟨descriptorTable[1], by simp [descriptorTable, aluDescriptors], rfl, by revert d r; decide +kernel⟩

theorem adiw (d : BitVec 2) (K : BitVec 6) : Statement (.adiw d K) :=
  ⟨descriptorTable[2], by simp [descriptorTable, aluDescriptors], rfl, by revert d K; decide +kernel⟩

theorem and (d r : BitVec 5) : Statement (.and d r) :=
  ⟨descriptorTable[3], by simp [descriptorTable, aluDescriptors], rfl, by revert d r; decide +kernel⟩

theorem andi (d : BitVec 4) (K : BitVec 8) : Statement (.andi d K) :=
  ⟨descriptorTable[4], by simp [descriptorTable, aluDescriptors], rfl, by revert d K; decide +kernel⟩

theorem asr (d : BitVec 5) : Statement (.asr d) :=
  ⟨descriptorTable[5], by simp [descriptorTable, aluDescriptors, bitDescriptors], rfl, by revert d; decide +kernel⟩

theorem bset (s : BitVec 3) : Statement (.bset s) :=
  ⟨descriptorTable[6], by simp [descriptorTable, aluDescriptors, bitDescriptors], rfl, by revert s; decide +kernel⟩

theorem bclr (s : BitVec 3) : Statement (.bclr s) :=
  ⟨descriptorTable[7], by simp [descriptorTable, aluDescriptors, bitDescriptors], rfl, by revert s; decide +kernel⟩

theorem bld (d : BitVec 5) (b : BitVec 3) : Statement (.bld d b) :=
  ⟨descriptorTable[8], by simp [descriptorTable, aluDescriptors, bitDescriptors], rfl, by revert d b; decide +kernel⟩

theorem bst (d : BitVec 5) (b : BitVec 3) : Statement (.bst d b) :=
  ⟨descriptorTable[9], by simp [descriptorTable, aluDescriptors, bitDescriptors], rfl, by revert d b; decide +kernel⟩

theorem brbs (k : BitVec 7) (s : BitVec 3) : Statement (.brbs k s) :=
  ⟨descriptorTable[10], by simp [descriptorTable, aluDescriptors, bitDescriptors], rfl, by revert k s; decide +kernel⟩

theorem brbc (k : BitVec 7) (s : BitVec 3) : Statement (.brbc k s) :=
  ⟨descriptorTable[11], by simp [descriptorTable, aluDescriptors, bitDescriptors], rfl, by revert k s; decide +kernel⟩

end Sys2Proof.Laws.LiteralBits
end

