-- ==== Sys2Proof/Laws/Step.lean ====
section
/-! SUPPORT. What a step can do, said once. -/

namespace Sys2Proof.Machine

variable {s t : State}

theorem phases_fault_or_execute (s : State) :
    (∃ f, phases s = .fault f ∧ (fetch s = .error f ∨ ∃ w e, fetch s = .ok w ∧ decode w = .error e ∧ f = decodeFault w e)) ∨
      ∃ w i, fetch s = .ok w ∧ decode w = .ok i ∧ phases s = execute i s := by
  cases hf : fetch s with
  | error f => exact .inl ⟨f, by simp [phases, hf], .inl rfl⟩
  | ok w =>
    cases hd : decode w with
    | error e => exact .inl ⟨decodeFault w e, by simp [phases, hf, hd], .inr ⟨w, e, rfl, hd, rfl⟩⟩
    | ok i => exact .inr ⟨w, i, rfl, hd, by simp [phases, hf, hd]⟩

/-- A step that answers next ran in a well-formed Ready state, and either took a fault of the fetch, the decode or the
handler, or ran one decoded instruction and its PC update. -/
theorem step_next_cases (h : step s = .next t) :
    s.cfg.WellFormed ∧ s.engine = .ready ∧
      ((∃ f, phases s = .fault f ∧ t = enterHalted f s) ∨
        ∃ w i u, fetch s = .ok w ∧ decode w = .ok i ∧ exec i s = .next u ∧ t = advancePc i u) := by
  unfold step at h
  split at h
  · next hwf =>
    refine ⟨hwf, ?_⟩
    split at h
    · next he =>
      refine ⟨he, ?_⟩
      unfold cycle at h
      split at h
      · next u hu =>
        cases h
        rcases phases_fault_or_execute s with ⟨f, hf, -⟩ | ⟨w, i, hw, hi, hx⟩
        · rw [hf] at hu; cases hu
        · rw [hx, execute] at hu
          split at hu
          · next v hv => cases hu; exact .inr ⟨w, i, v, hw, hi, hv, rfl⟩
          · cases hu
          · cases hu
      · next f hf => cases h; exact .inl ⟨f, hf, rfl⟩
      · cases h
    · cases h
  · cases h

/-- In a well-formed Ready state, a step is `cycle`. -/
theorem step_ready (h : s.cfg.WellFormed) (he : s.engine = .ready) : step s = cycle s := by
  rw [step, if_pos h, he]

/-- The other direction of `step_next_cases`, for an instruction that runs. -/
theorem step_of_decoded {w : OpWord} {i : Instr} (h : s.cfg.WellFormed) (he : s.engine = .ready)
    (hf : fetch s = .ok w) (hd : decode w = .ok i) (hx : exec i s = .next t) : step s = .next (advancePc i t) := by
  simp [step_ready h he, cycle, phases, hf, hd, execute, hx]

/-- The other direction of `step_next_cases`, for a fault. -/
theorem step_of_fault {f : Fault} (h : s.cfg.WellFormed) (he : s.engine = .ready) (hp : phases s = .fault f) :
    step s = .next (enterHalted f s) := by
  simp [step_ready h he, cycle, hp]

theorem fetch_ok (h : s.pc < s.cfg.progWords) :
    fetch s = .ok (wordOfBytes (s.pmem.read (2 * s.pc)) (s.pmem.read (2 * s.pc + 1))) := if_pos h

theorem fetch_error (h : s.cfg.progWords ≤ s.pc) : fetch s = .error (.addressOutOfRange (2 * s.pc)) :=
  if_neg (by omega)

@[simp] theorem advancePc_cfg (i : Instr) : (advancePc i s).cfg = s.cfg := by unfold advancePc; split <;> rfl
@[simp] theorem advancePc_dmem (i : Instr) : (advancePc i s).dmem = s.dmem := by unfold advancePc; split <;> rfl
@[simp] theorem advancePc_pmem (i : Instr) : (advancePc i s).pmem = s.pmem := by unfold advancePc; split <;> rfl
@[simp] theorem advancePc_engine (i : Instr) : (advancePc i s).engine = s.engine := by unfold advancePc; split <;> rfl

/-- The branch handlers change nothing but the PC. -/
@[simp] theorem branchIf_cfg (b : Bool) (k : BitVec 7) : (branchIf b k s).cfg = s.cfg := by unfold branchIf; split <;> rfl
@[simp] theorem branchIf_dmem (b : Bool) (k : BitVec 7) : (branchIf b k s).dmem = s.dmem := by
  unfold branchIf; split <;> rfl
@[simp] theorem branchIf_pmem (b : Bool) (k : BitVec 7) : (branchIf b k s).pmem = s.pmem := by
  unfold branchIf; split <;> rfl
@[simp] theorem branchIf_engine (b : Bool) (k : BitVec 7) : (branchIf b k s).engine = s.engine := by
  unfold branchIf; split <;> rfl

/-- Every PC write keeps the PC inside its width (R19). -/
theorem setPc_lt (s : State) (t : Int) : (s.setPc t).pc < 2 ^ s.cfg.pcBits := by
  have h : (0 : Int) < ((2 ^ s.cfg.pcBits : Nat) : Int) := by exact_mod_cast Nat.two_pow_pos _
  have h1 := Int.emod_nonneg t h.ne'
  have h2 := Int.emod_lt_of_pos t h
  rw [State.setPc_pc]
  omega

/-- A run of no steps answers the state itself. -/
theorem run_zero (s : State) : Host.Core.run Sys2Proof.core 0 s = .next s := rfl

/-- A run of `k + 1` steps that answers next is a step that answers next, and a run of `k` steps from there. -/
theorem run_succ_next {k : Nat} (h : Host.Core.run Sys2Proof.core (k + 1) s = .next t) :
    ∃ u, step s = .next u ∧ Host.Core.run Sys2Proof.core k u = .next t := by
  rw [Host.Core.run.eq_2 Sys2Proof.core s k] at h
  split at h
  · next u hu => exact ⟨u, hu, h⟩
  · cases h
  · cases h

end Sys2Proof.Machine
end

