-- ==== Sys2Proof/Tests/Slice0.lean ====
section
/-! SUPPORT. Tests of the model: the checks of WellFormed, words written out from the templates of R56, one-step vectors
of spec/95_test_vectors.md, and a witness for the hypotheses of every statement that has any. -/

namespace Sys2Proof.Machine.Tests

-- One test at a time: in the package as one text, many at once wait for each other and hold a thread each.
set_option Elab.async false

/-! ## WellFormed: an ill-formed configuration for each check of R3 -/

theorem test_reference_is_wellFormed : Config.reference.WellFormed := by decide
theorem test_smallest_is_wellFormed : (Config.mk 33 2 32 0).WellFormed := by decide
theorem test_dataSize_32_refused : ¬ (Config.mk 32 2 32 16).WellFormed := by decide
theorem test_sregAddr_31_refused : ¬ (Config.mk 2304 32768 31 16).WellFormed := by decide
theorem test_sregAddr_at_dataSize_refused : ¬ (Config.mk 2304 32768 2304 16).WellFormed := by decide
theorem test_odd_progBytes_refused : ¬ (Config.mk 2304 32767 0x5F 16).WellFormed := by decide
theorem test_progBytes_0_refused : ¬ (Config.mk 2304 0 0x5F 16).WellFormed := by decide
theorem test_progWords_beyond_pc_refused : ¬ (Config.mk 2304 131074 0x5F 16).WellFormed := by decide
theorem test_progWords_at_pc_accepted : (Config.mk 2304 131072 0x5F 16).WellFormed := by decide

/-! ## Decoding: words written out bit by bit from R56 -/

theorem test_decode_add : decode 0b0000110000010010 = .ok (.add 1 2) := by decide
theorem test_decode_add_r_bit4 : decode 0b0000111000001111 = .ok (.add 0 31) := by decide
theorem test_decode_adc : decode 0b0001110111110000 = .ok (.adc 31 0) := by decide
theorem test_decode_adiw : decode 0b1001011011011111 = .ok (.adiw 1 63) := by decide
theorem test_decode_and : decode 0b0010000000110100 = .ok (.and 3 4) := by decide
theorem test_decode_andi : decode 0b0111101001011100 = .ok (.andi 5 0xAC) := by decide
theorem test_decode_asr : decode 0b1001010101000101 = .ok (.asr 20) := by decide
theorem test_decode_bset : decode 0b1001010001101000 = .ok (.bset 6) := by decide
theorem test_decode_bclr : decode 0b1001010011111000 = .ok (.bclr 7) := by decide
theorem test_decode_bld : decode 0b1111100111110011 = .ok (.bld 31 3) := by decide
theorem test_decode_bst : decode 0b1111101011000101 = .ok (.bst 12 5) := by decide
theorem test_decode_brbs : decode 0b1111001000000111 = .ok (.brbs 0x40 7) := by decide
theorem test_decode_brbc : decode 0b1111011111101001 = .ok (.brbc 0x7D 1) := by decide

/-- The unknown words of 95_test_vectors.md section 2; the theorem after it says they are rejected by name. -/
def unknownWords : List OpWord :=
  [0x0000, 0x0800, 0x1800, 0x1400, 0x2400, 0x2800, 0x9700, 0x9400, 0x9406, 0x9407, 0x9508, 0x9518] ++
    [0x9588, 0x9598, 0x95A8, 0x9409, 0x940C, 0xF808, 0xFA08, 0xFC00, 0xFE00, 0xE000, 0xC000, 0xFFFF]

theorem test_unknown_words :
    unknownWords.map decode = unknownWords.map fun w => .error (.unknownOpcode w) := by decide +kernel

theorem test_decodeTableWord : decodeTableWord 16 0x0C12 = some (.add 1 2) := by decide
theorem test_decodeBytes_low_first : decodeBytes [0x12, 0x0C, 0xFF] = .ok (.add 1 2, [0xFF]) := by decide

/-- The words of R63: SEC, SEI, CLC, CLI are BSET and BCLR. -/
theorem test_alias_words : encode (.bset 0) = 0x9408 ∧ encode (.bset 7) = 0x9478 ∧ encode (.bclr 0) = 0x9488 ∧
    encode (.bclr 7) = 0x94F8 := by decide

/-! ## One-step vectors of 95_test_vectors.md. SREG is the data byte 0x5F = 95. -/

/-- A Ready state of the reference configuration with the word at the PC and the data bytes listed. -/
def at_ (word : OpWord) (pc : Nat) (bytes : Memory) : State :=
  State.withProgWord { cfg := Config.reference, dmem := bytes, pmem := [], pc := pc, engine := .ready } pc word

/-- The next state of a step, if there is one. -/
def stepped (s : State) : Option State :=
  match step s with
  | .next t => some t
  | .fault _ => none
  | .refused _ => none

/-- The next state of a handler, if there is one. -/
def executed (i : Instr) (s : State) : Option State :=
  match exec i s with
  | .next t => some t
  | .fault _ => none
  | .refused _ => none

/-- After one step: a register, SREG, PC. -/
def seen (n : Nat) (s : State) : Option (Byte × Byte × Nat) :=
  (stepped s).map fun t => (t.reg n, t.sreg, t.pc)

theorem test_add_carry_and_zero : seen 1 (at_ 0x0C12 0 [(1, 0xFF), (2, 0x01)]) = some (0x00, 0x23, 1) := by decide +kernel
theorem test_add_keeps_t_and_i : seen 1 (at_ 0x0C12 0 [(95, 0xFF)]) = some (0x00, 0xC2, 1) := by decide +kernel
theorem test_adc_carry_in_overflows : seen 1 (at_ 0x1C12 0 [(1, 0x7F), (95, 0x01)]) = some (0x80, 0x2C, 1) := by decide +kernel
theorem test_adc_same_register : seen 16 (at_ 0x1F00 0 [(16, 0x81), (95, 0x01)]) = some (0x03, 0x19, 1) := by decide +kernel
theorem test_adiw_keeps_h : seen 27 (at_ 0x96DF 0 [(26, 0xC1), (27, 0x7F), (95, 0x20)]) = some (0x80, 0x2C, 1) := by decide +kernel
theorem test_adiw_low_byte : seen 24 (at_ 0x968A 0 [(24, 0x34), (25, 0x12), (95, 0xE0)]) = some (0x5E, 0xE0, 1) := by decide +kernel
theorem test_and_keeps_c : seen 3 (at_ 0x2034 0 [(3, 0xFF), (4, 0x80), (95, 0x0B)]) = some (0x80, 0x15, 1) := by decide +kernel
theorem test_and_clears_snv : seen 3 (at_ 0x2034 0 [(4, 0xFF), (95, 0x1C)]) = some (0x00, 0x02, 1) := by decide +kernel
theorem test_andi_upper_register : seen 31 (at_ 0x7FF0 0 [(31, 0x80)]) = some (0x80, 0x14, 1) := by decide +kernel
theorem test_andi_keeps_ith_c : seen 17 (at_ 0x7010 0 [(17, 0x3C), (95, 0xFF)]) = some (0x00, 0xE3, 1) := by decide +kernel
theorem test_asr_keeps_sign : seen 20 (at_ 0x9545 0 [(20, 0x80)]) = some (0xC0, 0x0C, 1) := by decide +kernel
theorem test_asr_old_c_not_shifted_in : seen 20 (at_ 0x9545 0 [(20, 0xFE), (95, 0xFF)]) = some (0xFF, 0xEC, 1) := by decide +kernel
theorem test_bset_s_alone : seen 0 (at_ 0x9448 0 []) = some (0x00, 0x10, 1) := by decide +kernel
theorem test_bset_i : seen 0 (at_ 0x9478 0 []) = some (0x00, 0x80, 1) := by decide +kernel
theorem test_bclr_s_alone : seen 0 (at_ 0x94C8 0 [(95, 0x1C)]) = some (0x00, 0x0C, 1) := by decide +kernel
theorem test_bclr_c : seen 0 (at_ 0x9488 0 [(95, 0xFF)]) = some (0x00, 0xFE, 1) := by decide +kernel
theorem test_bld_clears : seen 7 (at_ 0xF874 0 [(7, 0x10), (95, 0xBF)]) = some (0x00, 0xBF, 1) := by decide +kernel
theorem test_bld_sets : seen 0 (at_ 0xF807 0 [(95, 0x40)]) = some (0x80, 0x40, 1) := by decide +kernel
theorem test_bst_clears_t_only : seen 31 (at_ 0xFBF7 0 [(31, 0x7F), (95, 0xFF)]) = some (0x7F, 0xBF, 1) := by decide +kernel
theorem test_bst_sets_t : seen 12 (at_ 0xFAC5 0 [(12, 0x20), (95, 0x3F)]) = some (0x20, 0x7F, 1) := by decide +kernel
theorem test_brbs_largest_backward : seen 0 (at_ 0xF207 100 [(95, 0x80)]) = some (0x00, 0x80, 37) := by decide +kernel
theorem test_brbs_not_taken : seen 0 (at_ 0xF028 10 []) = some (0x00, 0x00, 11) := by decide +kernel
theorem test_brbc_backward : seen 0 (at_ 0xF7E9 10 []) = some (0x00, 0x00, 8) := by decide +kernel
theorem test_brbc_wraps_below_zero : seen 0 (at_ 0xF606 10 []) = some (0x00, 0x00, 65483) := by decide +kernel

/-- Section 3.9: at the top of a PC range that program memory fills, the engine's increment wraps (R139). -/
theorem test_engine_increment_wraps :
    (stepped (State.withProgWord ⟨⟨2304, 131072, 0x5F, 16⟩, [], [], 65535, .ready⟩ 65535 0x0C12)).map State.pc = some 0 := by
  decide +kernel

/-- Section 3.10: an unknown word halts, the PC stays, and nothing else changes. -/
theorem test_unknown_word_halts :
    executeOne (at_ 0xFFFF 3 [(5, 7)]) =
      some ({ at_ 0xFFFF 3 [(5, 7)] with engine := .halted (.unknownOpcode 0xFFFF) }, .error (.unknownOpcode 0xFFFF)) := by
  decide +kernel

/-- Section 3.10: a fetch beyond program memory reports the byte address 32768. -/
theorem test_fetch_beyond_halts :
    (executeOne { State.reset with pc := 16384 }).map Prod.snd = some (.error (.addressOutOfRange 32768)) := by
  decide +kernel

/-- Section 3.10: the last word of program memory runs. -/
theorem test_last_word_runs : seen 0 (at_ 0x9408 16383 []) = some (0x00, 0x01, 16384) := by decide +kernel

/-- Section 3.10: `loadInstructionWord(2, 0x9601)` puts 0x01 at byte 4 and 0x96 at byte 5. -/
theorem test_load_is_little_endian :
    (loadInstructionWord 2 0x9601 State.reset).map State.pmem = .ok [(4, 0x01), (5, 0x96)] := by decide +kernel

/-- Section 3.10: `loadInstructionWord(16384, _)` fails. -/
theorem test_load_out_of_range : loadInstructionWord 16384 0 State.reset = .error (.addressOutOfRange 32768) := by
  decide +kernel

/-- Section 3.10: `writeRegister(32, 0)` is refused with InvalidOperand, whatever its detail. -/
theorem test_write_register_32 : ∃ detail, writeRegister 32 0 State.reset = .error (.invalidOperand detail) := ⟨_, rfl⟩

/-- The fixed interface: a table word placed in the reset state is the next instruction. -/
theorem test_withFetchWord_runs : seen 0 (State.reset.withFetchWord 16 0x9408) = some (0x00, 0x01, 1) := by decide +kernel

/-- Reset memory holds no program: its first word matches no descriptor. -/
theorem test_reset_without_program :
    (stepped State.reset).map State.engine = some (.halted (.unknownOpcode 0)) := by decide +kernel

/-- R3: a step refuses an ill-formed configuration. -/
theorem test_ill_formed_refused : step { State.reset with cfg := ⟨32, 2, 32, 16⟩ } = .refused .illFormedConfiguration := rfl

/-- Writing the value an unlisted address reads as removes the entry. -/
theorem test_memory_stays_canonical : Memory.write (Memory.write [(3, 1)] 1 5) 3 0 = [(1, 5)] := by decide

/-! ## Witnesses: for every statement with hypotheses, a state and operands that meet all of them -/

theorem witness_EncodeOfDecodeIsTheWord : decode 0x96FF = .ok (.adiw 3 63) := by decide

theorem witness_NoWordMatchesTwoDescriptors :
    ∃ p ∈ descriptorTable, ∃ q ∈ descriptorTable, p.candidate 0x9488 = true ∧ q.candidate 0x9488 = true := by decide

theorem witness_CandidateComparesTheLiteralBits :
    ∃ row ∈ descriptorTable, row.template[15 - 15]? = some .zero ∧ row.template[15 - 10]? = some .one ∧
      row.candidate 0x0C00 = true := by decide

theorem witness_DecodedFieldsAreTheWordsBits : decode 0x0E0F = .ok (.add 0 31) ∧ decode 0xF7FF = .ok (.brbc 127 7) := by
  decide

theorem witness_AddRunsAsSpecified : (at_ 0x0FFF 0 [(31, 0x80)]).cfg.WellFormed := by decide
theorem witness_AdcRunsAsSpecified : (at_ 0x1FFF 0 [(31, 0xFF), (95, 0x01)]).cfg.WellFormed := by decide
theorem witness_AdiwRunsAsSpecified : (at_ 0x96FF 0 [(30, 0xFF), (31, 0xFF)]).cfg.WellFormed := by decide
theorem witness_AndRunsAsSpecified : (at_ 0x2000 0 [(0, 0x80)]).cfg.WellFormed := by decide
theorem witness_AndiRunsAsSpecified : (at_ 0x7FFF 0 [(31, 0xA5)]).cfg.WellFormed := by decide
theorem witness_AsrRunsAsSpecified : (at_ 0x95F5 0 [(31, 0x81)]).cfg.WellFormed := by decide
theorem witness_BsetRunsAsSpecified : (at_ 0x9478 0 []).cfg.WellFormed := by decide
theorem witness_BclrRunsAsSpecified : (at_ 0x94F8 0 [(95, 0x80)]).cfg.WellFormed := by decide
theorem witness_BldRunsAsSpecified : (at_ 0xF9F7 0 [(95, 0x40)]).cfg.WellFormed := by decide
theorem witness_BstRunsAsSpecified : (at_ 0xFBF7 0 [(31, 0x80)]).cfg.WellFormed := by decide
theorem witness_BrbsRunsAsSpecified : (at_ 0xF3FF 0 [(95, 0x80)]).cfg.WellFormed := by decide
theorem witness_BrbcRunsAsSpecified : (at_ 0xF7FF 0 []).cfg.WellFormed := by decide
theorem witness_PseudoInstructionsDoWhatTheySay : (at_ 0x0F00 0 [(16, 0x81)]).cfg.WellFormed := by decide

theorem witness_BranchOffsetRange : branchOffset 63 = 63 ∧ branchOffset 64 = -64 ∧ branchOffset 127 = -1 := by decide

theorem witness_ExecChangesOnlyWhatTheTableNames :
    (at_ 0x0C12 0 [(1, 3)]).cfg.WellFormed ∧ (executed (.add 1 2) (at_ 0x0C12 0 [(1, 3)])).isSome ∧
      ownsPc (.add 1 2) = false := by decide +kernel

theorem witness_OnlyBitStoresChangeTAndI :
    Config.reference.WellFormed ∧ (executed (.bst 31 7) (at_ 0xFBF7 0 [(31, 0x80)])).map (fun t => t.flag .t) = some true ∧
      (at_ 0xFBF7 0 [(31, 0x80)]).flag .t = false ∧
      (executed (.bset 7) (at_ 0x9478 0 [])).map (fun t => t.flag .i) = some true ∧ (at_ 0x9478 0 []).flag .i = false := by
  decide +kernel

/-- Two states that differ in I alone, and a word that does not branch on it. -/
theorem witness_InterruptFlagHasNoEffect :
    AgreeExceptFlag .i (at_ 0x0C12 0 []) (at_ 0x0C12 0 [(95, 0x80)]) ∧ (stepped (at_ 0x0C12 0 [])).isSome ∧
      ∀ w k, fetch (at_ 0x0C12 0 []) = .ok w → decode w ≠ .ok (.brbs k 7) ∧ decode w ≠ .ok (.brbc k 7) := by
  refine ⟨⟨rfl, rfl, rfl, rfl, fun a _ hs => ?_, fun f hf => ?_⟩, by decide +kernel, fun w k hw => ?_⟩
  · have hne : (95 : Nat) ≠ a := fun h => hs h.symm
    show Memory.read [(95, 0x80)] a = Memory.read [] a
    simp [hne, Memory.read]
  · cases f <;> first | decide | exact absurd (List.mem_singleton.mpr rfl) hf
  · have : fetch (at_ 0x0C12 0 []) = .ok 0x0C12 := by decide +kernel
    rw [this] at hw
    cases hw
    rw [test_decode_add]
    exact ⟨nofun, nofun⟩

theorem witness_RunKeepsOtherCellsAndProgram :
    ∃ t, Host.Core.run Sys2Proof.core 1 (at_ 0x0C12 0 [(200, 9)]) = .next t := ⟨_, rfl⟩

theorem witness_NoInstructionRaisesInvalidOperand : (at_ 0x0C12 0 []).engine = .ready := rfl

theorem witness_StepRunsTheDecodedInstruction :
    let s := at_ 0xF028 10 [(95, 0x01)]
    s.cfg.WellFormed ∧ s.engine = .ready ∧ s.pc < s.cfg.progWords ∧
      decode (s.pmem.read (2 * s.pc + 1) ++ s.pmem.read (2 * s.pc)) = .ok (.brbs 5 0) := by decide +kernel

theorem witness_ReadyStepAlwaysAnswersNext : State.reset.cfg.WellFormed ∧ State.reset.engine = .ready := by decide

/-- The last PC inside program memory and the first beyond it. -/
theorem witness_FetchFaultsExactlyBeyondProgramMemory :
    Config.reference.WellFormed ∧ (at_ 0x9408 16383 []).engine = .ready ∧
      (at_ 0x9408 16383 []).pc < Config.reference.progWords ∧
      Config.reference.progWords ≤ ({ State.reset with pc := 16384 } : State).pc ∧
      ({ State.reset with pc := 16384 } : State).engine = .ready := by decide

theorem witness_UnmatchedWordHaltsWithUnknownOpcode :
    (at_ 0xF808 3 []).cfg.WellFormed ∧ (at_ 0xF808 3 []).engine = .ready ∧
      fetch (at_ 0xF808 3 []) = .ok 0xF808 ∧ ∀ row ∈ descriptorTable, row.candidate 0xF808 = false := by decide +kernel

/-- A halted state. -/
def halted : State := enterHalted (.addressOutOfRange 6) State.reset

theorem witness_HaltedStepReturnsTheRecordedFault :
    halted.cfg.WellFormed ∧ halted.engine = .halted (.addressOutOfRange 6) := by decide

theorem witness_NothingLeavesHalted :
    halted.engine = .halted (.addressOutOfRange 6) ∧ (executed (.add 1 2) halted).isSome ∧
      (loadInstructionWord 16383 0x9408 halted).toOption.isSome ∧ (writeRegister 31 1 halted).toOption.isSome := by
  decide +kernel

theorem witness_FailedStepChangesOnlyEngineAndFault :
    (executeOne (at_ 0x0000 5 [(7, 7)])).map Prod.snd = some (.error (.unknownOpcode 0x0000)) := by decide +kernel

/-- Both kinds of result. -/
theorem witness_ResultOfACallMatchesTheEngine :
    (executeOne (at_ 0x9408 0 [])).map Prod.snd = some (.ok ()) ∧
      (executeOne halted).map Prod.snd = some (.error (.addressOutOfRange 6)) := by decide +kernel

theorem witness_EveryExecutionUpdatesThePcOnce :
    (executeOne (at_ 0xF7E9 10 [])).map (fun x => (x.1.pc, x.2)) = some (8, .ok ()) := by decide +kernel

/-- `BRBC 0,-1` with C clear is a branch to itself. -/
theorem witness_OnlyATakenSelfBranchKeepsThePc :
    7 ≤ (at_ 0xF7F8 5 []).cfg.pcBits ∧
      (executeOne (at_ 0xF7F8 5 [])).map (fun x => (x.1.pc, x.2)) = some ((at_ 0xF7F8 5 []).pc, .ok ()) := by decide +kernel

theorem witness_StepKeepsTheInvariant :
    (at_ 0x96EF 0 [(28, 0xC1), (29, 0xFF), (95, 0xFF)]).wf ∧
      (stepped (at_ 0x96EF 0 [(28, 0xC1), (29, 0xFF), (95, 0xFF)])).isSome := by decide +kernel

/-- The last data address and the first beyond it. -/
theorem witness_DataAccessIsBoundsChecked :
    2303 < State.reset.cfg.dataSize ∧ State.reset.cfg.dataSize ≤ 2304 := by decide

theorem witness_FlagPrimitivesTouchOneBit : (at_ 0x9478 0 [(95, 0x7F)]).cfg.WellFormed := by decide

theorem witness_ProgramReadIsBoundsChecked :
    16383 < State.reset.cfg.progWords ∧ State.reset.cfg.progWords ≤ 16384 := by decide

/-- A PC at the top of its range, a written PC inside program memory, and one beyond it. -/
theorem witness_PcWritesWrapAtItsWidth :
    ({ State.reset with pc := 65535 } : State).pc = 2 ^ State.reset.cfg.pcBits - 1 ∧
      (State.reset.setPc 16383).pc < State.reset.cfg.progWords ∧
      State.reset.cfg.progWords ≤ (State.reset.setPc (-1)).pc := by decide

theorem witness_LoaderWritesOneWord :
    16383 < State.reset.cfg.progWords ∧ State.reset.cfg.progWords ≤ 16384 := by decide

theorem witness_LoadedWordIsFetched :
    (loadInstructionWord 0 0x9408 State.reset).toOption.isSome ∧ State.reset.pc = 0 ∧
      (loadInstructionWord 1 0x9408 State.reset).toOption.isSome ∧ State.reset.pc ≠ 1 := by decide +kernel

/-- The largest index inside the domain and the smallest outside it. -/
theorem witness_HostRegisterAccess : State.reset.cfg.WellFormed ∧ 31 ≤ 31 ∧ 31 < 32 := by decide

theorem witness_HostFlagRead : (at_ 0x9408 0 [(95, 0xA5)]).cfg.WellFormed := by decide

theorem witness_ResetStartsAtWordZero :
    ∃ t, construct Config.reference (fun _ => 7) (fun _ => 9) = .next t := ⟨_, rfl⟩

theorem witness_ConstructionIsTheReset :
    (Config.mk 33 2 32 0).WellFormed ∧ ¬ (Config.mk 32 2 32 0).WellFormed := by decide

end Sys2Proof.Machine.Tests
end

/-! PROOFS. The PC: what a write of it stores (R19), and where it stands after reset and construction (R24). -/

namespace Sys2Proof.Machine

/-- The stored PC read as an integer is the target's residue (R19), so also for a negative target. -/
theorem setPc_pc_cast (s : State) (t : Int) : ((s.setPc t).pc : Int) = t % 2 ^ s.cfg.pcBits := by
  have hnonneg : 0 ≤ t % 2 ^ s.cfg.pcBits := Int.emod_nonneg t (by positivity)
  simpa using hnonneg

/-- The increment of the PC at the top of its range wraps to 0. -/
theorem setPc_succ_top {s : State} (h : s.pc = 2 ^ s.cfg.pcBits - 1) : (s.setPc (s.pc + 1)).pc = 0 := by
  have htop : (s.pc : Int) + 1 = 2 ^ s.cfg.pcBits := by
    have hpos := Nat.two_pow_pos s.cfg.pcBits
    have hnat : s.pc + 1 = 2 ^ s.cfg.pcBits := by omega
    exact_mod_cast hnat
  apply Int.natCast_eq_zero.mp
  rw [setPc_pc_cast, htop, Int.emod_self]

theorem setPc_rest (s : State) (t : Int) : RestUnchanged s (s.setPc t) := ⟨rfl, rfl, rfl⟩

/-- Construction answers next only from a well-formed configuration, and then with the launch contents, PC 0 and a
Ready engine. -/
theorem construct_next {cfg : Config} {dmemInit pmemInit : Nat → Byte} {t : State}
    (h : construct cfg dmemInit pmemInit = .next t) :
    cfg.WellFormed ∧ t = { cfg := cfg, dmem := Memory.ofFun cfg.dataSize dmemInit,
                           pmem := Memory.ofFun cfg.progBytes pmemInit, pc := 0, engine := .ready } := by
  unfold construct at h
  split at h
  · next hwf => cases h; exact ⟨hwf, rfl⟩
  · cases h

/-- The first fetch after construction reads program bytes 0 and 1, the low byte first. -/
theorem fetch_of_construct {cfg : Config} {dmemInit pmemInit : Nat → Byte} {t : State}
    (h : construct cfg dmemInit pmemInit = .next t) : fetch t = .ok (pmemInit 1 ++ pmemInit 0) := by
  obtain ⟨⟨-, -, -, -, hbytes, -⟩, rfl⟩ := construct_next h
  have hwords : 0 < cfg.progWords := Nat.div_pos hbytes two_pos
  have hlow := Memory.read_ofFun pmemInit (show 0 < cfg.progBytes by omega)
  have hhigh := Memory.read_ofFun pmemInit (show 1 < cfg.progBytes by omega)
  rw [fetch_ok hwords]
  simp [wordOfBytes, hlow, hhigh]

/-- Settles O48: the residue, the wrap at the top, and the fetch on either side of PROG_WORDS. -/
theorem pcWritesWrapAtItsWidth : Obligations.PcWritesWrapAtItsWidth := by
  intro s target
  exact ⟨setPc_pc_cast s target, State.setPc_dmem s target, setPc_rest s target, setPc_succ_top,
    fun h => ⟨_, fetch_ok h⟩, fun h => fetch_error h⟩

/-- Settles O43, by what a construction that answers next has made. -/
theorem resetStartsAtWordZero : Obligations.ResetStartsAtWordZero := by
  refine ⟨rfl, fun cfg dmemInit pmemInit t h => ⟨?_, fetch_of_construct h⟩⟩
  obtain ⟨-, rfl⟩ := construct_next h
  rfl

end Sys2Proof.Machine

/-! PROOFS. The access primitives of 20_memory.md: data memory (R30), the flags of SREG (R31), program memory (R32). -/

namespace Sys2Proof.Machine

theorem memRead_error {a : Nat} {s : State} (h : s.cfg.dataSize ≤ a) : memRead a s = .error (.addressOutOfRange a) :=
  if_neg h.not_gt

theorem memWrite_error {a : Nat} {s : State} (v : Byte) (h : s.cfg.dataSize ≤ a) :
    memWrite a v s = .error (.addressOutOfRange a) :=
  if_neg h.not_gt

theorem putByte_rest (s : State) (a : Nat) (v : Byte) : RestUnchanged s (s.putByte a v) := ⟨rfl, rfl, rfl⟩

/-- A data byte just written inside the bounds reads back. -/
theorem memRead_putByte_same {a : Nat} {s : State} (v : Byte) (h : a < s.cfg.dataSize) :
    memRead a (s.putByte a v) = .ok v := by
  rw [memRead_ok (s := s.putByte a v) h, State.putByte_dmem, Memory.read_write_same]

theorem progRead_ok {w : Nat} {s : State} (h : w < s.cfg.progWords) :
    progRead w s = .ok (wordOfBytes (s.pmem.read (2 * w)) (s.pmem.read (2 * w + 1))) :=
  if_pos h

theorem progRead_error {w : Nat} {s : State} (h : s.cfg.progWords ≤ w) :
    progRead w s = .error (.addressOutOfRange (2 * w)) :=
  if_neg h.not_gt

/-- The little-endian value of a word (R32, R33): joining the bytes is adding the high one at weight 256. -/
theorem wordOfBytes_toNat (lo hi : Byte) : (wordOfBytes lo hi).toNat = lo.toNat + hi.toNat * 256 := by
  rw [wordOfBytes, BitVec.toNat_append, ← Nat.shiftLeft_add_eq_or_of_lt lo.isLt, Nat.shiftLeft_eq]
  omega

/-- Settles O46: the masks `1 << k` are those of the eight flags, so the laws of one flag's read and write apply. -/
theorem flagPrimitivesTouchOneBit : Obligations.FlagPrimitivesTouchOneBit := by
  intro s k b h
  rw [← flagMask]
  refine ⟨?_, _, setFlagMask_ok h (flagMask k.toNat) b, State.sreg_putByte_sreg _, ?_⟩
  · rw [readFlagMask_ok h, and_flagMask _ _ k.isLt]
  · rw [flagMask_index]
    exact setFlag_frame s (Flag.ofIndex k) b

/-- Settles O45: the answer of the two primitives on either side of DATA_SIZE, and the frame of one byte's write. -/
theorem dataAccessIsBoundsChecked : Obligations.DataAccessIsBoundsChecked := by
  intro s a v
  refine ⟨fun h => ⟨memRead_ok h, _, memWrite_ok v h, ?_⟩, fun h => ⟨memRead_error h, memWrite_error v h⟩⟩
  exact ⟨memRead_putByte_same v h, fun c hc => Memory.read_write_other _ v hc, putByte_rest s a v, rfl⟩

/-- Settles O47: the answer on either side of PROG_WORDS, and the value of the word that the two bytes make. -/
theorem programReadIsBoundsChecked : Obligations.ProgramReadIsBoundsChecked := by
  intro s w
  exact ⟨fun h => ⟨_, progRead_ok h, wordOfBytes_toNat _ _⟩, progRead_error⟩

end Sys2Proof.Machine

/-! PROOFS. The descriptor table against its templates (R52, R66), and what a word that no descriptor matches does
(R55, R151). -/

namespace Sys2Proof.Machine

/-- The candidate test position by position: masked, the word's bit is the match value's. -/
theorem Descriptor.candidate_iff_getLsbD (row : Descriptor) (w : OpWord) :
    row.candidate w = true ↔ ∀ p < 16, (w.getLsbD p && row.mask.getLsbD p) = row.pattern.getLsbD p := by
  simp [Descriptor.candidate, BitVec.eq_of_getLsbD_eq_iff]

/-- The printed mask has a 1 exactly at the literal positions of the template, and the printed match value exactly at
the literal 1s: a check of the twelve rows of R56. -/
theorem descriptorTable_mask_pattern : ∀ row ∈ descriptorTable, row.template.length = 16 ∧ ∀ p < 16,
    row.mask.getLsbD p = decide (row.template[15 - p]? = some .zero ∨ row.template[15 - p]? = some .one) ∧
      row.pattern.getLsbD p = decide (row.template[15 - p]? = some .one) := by
  decide

/-- Settles O4: at each position the test compares a literal bit and passes over a field letter. -/
theorem candidateComparesTheLiteralBits : Obligations.CandidateComparesTheLiteralBits := by
  intro row hrow
  obtain ⟨hlength, hbits⟩ := descriptorTable_mask_pattern row hrow
  refine ⟨hlength, fun w => (Descriptor.candidate_iff_getLsbD row w).trans (forall₂_congr fun p hp => ?_)⟩
  obtain ⟨hmask, hpattern⟩ := hbits p hp
  rw [hmask, hpattern]
  by_cases hzero : row.template[15 - p]? = some .zero
  · simp [hzero]
  · by_cases hone : row.template[15 - p]? = some .one
    · simp [hone]
    · simp [hzero, hone]

/-- R66 over the table: the match value of a row decodes to the row's identifier with all-zero raw fields. -/
theorem decode_pattern : ∀ row ∈ descriptorTable, decode row.pattern = .ok (row.id.withFields ⟨0, 0, 0, 0, 0, 0⟩) := by
  decide

/-- Settles O7, which is `decode_pattern` written out for the twelve rows. -/
theorem decoderRoundTripOfZeroFields : Obligations.DecoderRoundTripOfZeroFields := by
  unfold Obligations.DecoderRoundTripOfZeroFields
  simpa [descriptorTable, aluDescriptors, bitDescriptors, InstrId.withFields] using decode_pattern

/-- R55: a word that is a candidate of no descriptor is rejected by name. -/
theorem decode_of_no_candidate {w : OpWord} (h : ∀ row ∈ descriptorTable, row.candidate w = false) :
    decode w = .error (.unknownOpcode w) := by
  have hnone : descriptorTable.find? (fun row => row.candidate w) = none := by simpa using h
  rw [decode, hnone]

/-- A fault of a phase in a well-formed Ready state is what the call returns, and the state after is the one before with
that fault entered (R141, R155). -/
theorem executeOne_of_fault {s : State} {f : Fault} (h : s.cfg.WellFormed) (he : s.engine = .ready)
    (hp : phases s = .fault f) : executeOne s = some (enterHalted f s, .error f) := by
  rw [executeOne, step_of_fault h he hp]
  rfl

/-- Settles O34: the decoder rejects the word, so the Decode phase raises UnknownOpcode of it. -/
theorem unmatchedWordHaltsWithUnknownOpcode : Obligations.UnmatchedWordHaltsWithUnknownOpcode := by
  intro s w hwf hready hfetch hunmatched
  have hphases : phases s = .fault (.unknownOpcode w) := by
    simp [phases, hfetch, decode_of_no_candidate hunmatched, decodeFault]
  exact executeOne_of_fault hwf hready hphases

end Sys2Proof.Machine

/-! PROOFS. The words of format RR (R51, R53): a word decodes to the fields of the one descriptor it is a candidate of
(R54), and under a template of format RR these are the fields the word was made of. -/

namespace Sys2Proof.Machine

/-- Any two descriptors of R56 differ at a position that is literal in both. -/
theorem descriptorTable_literals_differ : ∀ p ∈ descriptorTable, ∀ q ∈ descriptorTable,
    p.pattern &&& q.mask = q.pattern &&& p.mask → p = q := by
  decide

theorem candidate_unique {p q : Descriptor} {w : OpWord} (hp : p ∈ descriptorTable) (hq : q ∈ descriptorTable)
    (hpw : p.candidate w = true) (hqw : q.candidate w = true) : p = q := by
  refine descriptorTable_literals_differ p hp q hq ?_
  rw [Descriptor.candidate, beq_iff_eq] at hpw hqw
  rw [← hpw, ← hqw, BitVec.and_assoc, BitVec.and_assoc, BitVec.and_comm p.mask]

/-- The order of the table does not matter to the decoder (R54). -/
theorem decode_of_candidate {row : Descriptor} {w : OpWord} (hrow : row ∈ descriptorTable)
    (hw : row.candidate w = true) : decode w = .ok (row.id.withFields (rawFields row.template w)) := by
  unfold decode
  cases hfind : descriptorTable.find? (fun row => row.candidate w) with
  | none => exact absurd hw (List.find?_eq_none.mp hfind row hrow)
  | some found =>
    have hsame : found = row :=
      candidate_unique (List.mem_of_find?_eq_some hfind) hrow (by simpa using List.find?_some hfind) hw
    rw [hsame]

/-- Template positions without the letter add nothing to its field. -/
theorem gather_skip {c : Slot} {l : List Slot} (h : c ∉ l) (w : OpWord) (rest : List Slot) (acc : Nat) :
    gather c w (l ++ rest) acc = gather c w rest acc := by
  induction l with
  | nil => rfl
  | cons x l ih =>
    obtain ⟨hx, hl⟩ := not_or.mp (mt List.mem_cons.mpr h)
    rw [List.cons_append, gather, if_neg (Ne.symm hx), ih hl]

/-- A run of one letter appends the word's bits at these positions to the field. -/
theorem gather_replicate (c : Slot) (w : OpWord) (n : Nat) (rest : List Slot) (acc : Nat) :
    gather c w (List.replicate n c ++ rest) acc =
      gather c w rest (acc * 2 ^ n + (w.extractLsb' rest.length n).toNat) := by
  induction n generalizing acc with
  | zero => simp
  | succ n ih =>
    have htop : (w.extractLsb' rest.length (n + 1)).toNat =
        (w.getLsbD (n + rest.length)).toNat * 2 ^ n + (w.extractLsb' rest.length n).toNat := by
      rw [BitVec.extractLsb'_toNat, BitVec.extractLsb'_toNat, Nat.mod_pow_succ, ← Nat.toNat_testBit,
        Nat.testBit_shiftRight, BitVec.testBit_toNat, Nat.add_comm rest.length]
      ring
    rw [List.replicate_succ, List.cons_append, gather, if_pos rfl, ih, List.length_append, List.length_replicate, htop]
    congr 1
    ring

/-- The field letters of format RR (R51), after the six literal bits. -/
def rrFields : List Slot :=
  List.replicate 1 .r ++ (List.replicate 5 .d ++ List.replicate 4 .r)

/-- The instructions of format RR. -/
def rrIds : List InstrId := [.add, .adc, .and]

/-- A check of the three rows of format RR in R56. -/
theorem descriptorTable_rr : ∀ row ∈ descriptorTable, row.id ∈ rrIds →
    row.template = row.template.take 6 ++ rrFields ∧
      Slot.d ∉ row.template.take 6 ∧ Slot.r ∉ row.template.take 6 := by
  decide

section
variable (opcode : BitVec 6) (d r : BitVec 5)

theorem formatRR_extract_d : (formatRR opcode d r).extractLsb' 4 5 = d := by
  rw [formatRR, BitVec.extractLsb'_append_eq_of_le le_rfl]
  exact BitVec.extractLsb'_append_eq_right

theorem formatRR_extract_r_high : (formatRR opcode d r).extractLsb' 9 1 = r.extractLsb' 4 1 := by
  rw [formatRR, BitVec.extractLsb'_append_eq_of_le (by decide), BitVec.extractLsb'_append_eq_of_le (by decide)]
  exact BitVec.extractLsb'_append_eq_right

theorem formatRR_extract_r_low : (formatRR opcode d r).extractLsb' 0 4 = r.extractLsb' 0 4 :=
  BitVec.extractLsb'_append_eq_right

/-- The raw fields of a word of format RR under a template of that format are the fields the word was made of. -/
theorem rawFields_formatRR {lits : List Slot} (hd : Slot.d ∉ lits) (hr : Slot.r ∉ lits) :
    (rawFields (lits ++ rrFields) (formatRR opcode d r)).d = d.toNat ∧
      (rawFields (lits ++ rrFields) (formatRR opcode d r)).r = r.toNat := by
  constructor
  · show gather .d _ (lits ++ rrFields) 0 = _
    rw [gather_skip hd, rrFields, gather_skip (by decide), gather_replicate]
    show gather .d _ (List.replicate 4 .r ++ []) _ = _
    rw [gather_skip (by decide), List.length_replicate, formatRR_extract_d, gather]
    omega
  · show gather .r _ (lits ++ rrFields) 0 = _
    rw [gather_skip hr, rrFields, gather_replicate, gather_skip (by decide)]
    show gather .r _ (List.replicate 4 .r ++ []) (_ + (BitVec.extractLsb' 9 1 _).toNat) = _
    rw [gather_replicate, List.length_nil, formatRR_extract_r_high, formatRR_extract_r_low, gather,
      BitVec.extractLsb'_toNat, BitVec.extractLsb'_toNat, Nat.shiftRight_eq_div_pow]
    omega

end

/-- The word of an instruction of format RR decodes to its own identifier and operands. -/
theorem decode_encode_rr {i : Instr} {id : InstrId} {opcode : BitVec 6} {d r : BitVec 5} (hrr : id ∈ rrIds)
    (hid : instrId i = id) (hi : encode i = formatRR opcode d r) (hlits : Laws.LiteralBits.Statement i) :
    ∃ f, decode (encode i) = .ok (id.withFields f) ∧ f.d = d.toNat ∧ f.r = r.toNat := by
  obtain ⟨row, hrow, hrowId, hcand⟩ := hlits
  obtain rfl : row.id = id := hrowId.trans hid
  obtain ⟨htemplate, hd, hr⟩ := descriptorTable_rr row hrow hrr
  refine ⟨_, decode_of_candidate hrow hcand, ?_⟩
  rw [htemplate, hi]
  exact rawFields_formatRR opcode d r hd hr

theorem decode_encode_add (d r : BitVec 5) : decode (encode (.add d r)) = .ok (.add d r) := by
  obtain ⟨f, hdecode, hd, hr⟩ := decode_encode_rr (id := .add) (by decide) rfl rfl (Laws.LiteralBits.add d r)
  simp [hdecode, InstrId.withFields, hd, hr]

theorem decode_encode_adc (d r : BitVec 5) : decode (encode (.adc d r)) = .ok (.adc d r) := by
  obtain ⟨f, hdecode, hd, hr⟩ := decode_encode_rr (id := .adc) (by decide) rfl rfl (Laws.LiteralBits.adc d r)
  simp [hdecode, InstrId.withFields, hd, hr]

end Sys2Proof.Machine

/-! PROOFS. ADD and ADC (R90, R91): the sum and its flags as numbers, and what the part the two share leaves behind. -/

namespace Sys2Proof.Machine

section
variable (a b : Byte) (cin : Bool)

theorem addResult_toNat : (addResult a b cin).toNat = (a.toNat + b.toNat + cin.toNat) % 256 := by
  simp [addResult, addFull]

theorem zeroFlag_eq_decide (r : Byte) : zeroFlag r = decide (r.toNat = 0) := by
  rw [zeroFlag, beq_eq_decide]
  exact decide_eq_decide.mpr BitVec.toNat_inj.symm

/-- The mask of R76 takes the low nibble. -/
theorem and_lowNibble_toNat : (a &&& 0x0F).toNat = a.toNat % 16 := by
  rw [BitVec.toNat_and]
  exact Nat.and_two_pow_sub_one_eq_mod a.toNat 4

theorem halfCarryAdd_eq_decide :
    halfCarryAdd a b cin = decide (a.toNat % 16 + b.toNat % 16 + cin.toNat > 15) := by
  rw [halfCarryAdd, and_lowNibble_toNat, and_lowNibble_toNat]

end

/-- The state after `addRegisters`: the sum in `R[d]` and the six flags of addition. -/
def State.afterAdd (s : State) (d r : Nat) (cin : Bool) : State :=
  (s.putByte d (addResult (s.reg d) (s.reg r) cin)).putByte s.cfg.sregAddr
    (withFlags (additionFlags (s.reg d) (s.reg r) cin (addResult (s.reg d) (s.reg r) cin)) s.sreg)

theorem exec_add {s : State} (h : s.cfg.WellFormed) (d r : BitVec 5) :
    exec (.add d r) s = .next (s.afterAdd d.toNat r.toNat false) :=
  execAdd_eq h d r

theorem exec_adc {s : State} (h : s.cfg.WellFormed) (d r : BitVec 5) :
    exec (.adc d r) s = .next (s.afterAdd d.toNat r.toNat (s.flag .c)) :=
  execAdc_eq h d r

section
variable {s : State} (h : s.cfg.WellFormed) {d : Nat} (hd : d < 32) (r : Nat) (cin : Bool)

include h hd in
theorem afterAdd_reg : (s.afterAdd d r cin).reg d = addResult (s.reg d) (s.reg r) cin :=
  commit_reg h hd _ _

theorem afterAdd_flag {f : Flag} {b : Bool}
    (hf : (f, b) ∈ additionFlags (s.reg d) (s.reg r) cin (addResult (s.reg d) (s.reg r) cin)) :
    (s.afterAdd d r cin).flag f = b :=
  commit_flag_mem s d _ (additionFlags_nodup ..) hf

theorem afterAdd_frame : UnchangedBut [d] [.h, .s, .v, .n, .z, .c] s (s.afterAdd d r cin) :=
  commit_frame _ (additionFlags ..)

include h hd in
/-- Result, six flags and frame of an addition with carry in, in the terms of R90 and R91. -/
theorem afterAdd_meets_rule :
    let a := (s.reg d).toNat
    let b := (s.reg r).toNat
    let t := s.afterAdd d r cin
    (t.reg d).toNat = (a + b + cin.toNat) % 256 ∧
      t.flag .h = decide (a % 16 + b % 16 + cin.toNat > 15) ∧
      t.flag .c = decide (a + b + cin.toNat > 255) ∧
      t.flag .z = decide ((a + b + cin.toNat) % 256 = 0) ∧
      t.flag .n = (t.reg d).getLsbD 7 ∧
      t.flag .v = (((s.reg d).getLsbD 7 == (s.reg r).getLsbD 7) && ((t.reg d).getLsbD 7 != (s.reg d).getLsbD 7)) ∧
      t.flag .s = (t.flag .n ^^ t.flag .v) ∧
      UnchangedBut [d] [.h, .s, .v, .n, .z, .c] s t := by
  intro a b t
  have hreg : t.reg d = addResult (s.reg d) (s.reg r) cin := afterAdd_reg h hd r cin
  have hsum : (t.reg d).toNat = (a + b + cin.toNat) % 256 := by rw [hreg, addResult_toNat]
  have hn : t.flag .n = (t.reg d).getLsbD 7 := hreg ▸ afterAdd_flag r cin (by simp [additionFlags, negativeFlag])
  have hv : t.flag .v = overflowAdd (s.reg d) (s.reg r) (t.reg d) :=
    hreg ▸ afterAdd_flag r cin (by simp [additionFlags])
  refine ⟨hsum, ?_, ?_, ?_, hn, hv, ?_, afterAdd_frame r cin⟩
  · rw [← halfCarryAdd_eq_decide]
    exact afterAdd_flag r cin (by simp [additionFlags])
  · exact afterAdd_flag r cin (by simp [additionFlags, carryAdd, addFull, a, b])
  · rw [← hsum, ← zeroFlag_eq_decide, hreg]
    exact afterAdd_flag r cin (by simp [additionFlags])
  · rw [hn, hv, hreg]
    exact afterAdd_flag r cin (by simp [additionFlags, signFlag, negativeFlag])

end

/-- Settles O12: ADD is the addition with carry in 0. -/
theorem addRunsAsSpecified : Obligations.AddRunsAsSpecified := by
  intro s d r h
  exact ⟨decode_encode_add d r, _, exec_add h d r, afterAdd_meets_rule h d.isLt r.toNat false⟩

/-- Settles O13: ADC is the addition whose carry in is the C flag before. -/
theorem adcRunsAsSpecified : Obligations.AdcRunsAsSpecified := by
  intro s d r h a b cin
  have hcin : cin = (s.flag .c).toNat := by cases hc : s.flag .c <;> simp [cin, hc]
  rw [hcin]
  exact ⟨decode_encode_adc d r, _, exec_adc h d r, afterAdd_meets_rule h d.isLt r.toNat (s.flag .c)⟩

end Sys2Proof.Machine

/-! PROOFS. The words of AND (format RR) and ANDI (format RI8, R51): ANDI's template holds `K` in two runs around `d`,
and gathering them gives back the operands the word was made of. -/

namespace Sys2Proof.Machine

theorem decode_encode_and (d r : BitVec 5) : decode (encode (.and d r)) = .ok (.and d r) := by
  obtain ⟨f, hdecode, hd, hr⟩ := decode_encode_rr (id := .and) (by decide) rfl rfl (Laws.LiteralBits.and d r)
  simp [hdecode, InstrId.withFields, hd, hr]

section
variable {lits : List Slot} {c x : Slot} (w : OpWord) (n m k : Nat)

/-- A field in two runs around another field is its high bits and its low bits. -/
theorem gather_split (hc : c ∉ lits) (hx : c ≠ x) :
    gather c w (lits ++ (List.replicate n c ++ (List.replicate m x ++ List.replicate k c))) 0 =
      (w.extractLsb' (m + k) n).toNat * 2 ^ k + (w.extractLsb' 0 k).toNat := by
  have hskip : c ∉ List.replicate m x := fun h => hx (List.eq_of_mem_replicate h)
  rw [gather_skip hc, gather_replicate, gather_skip hskip, ← List.append_nil (List.replicate k c), gather_replicate]
  simp [gather]

/-- A field between the two runs of another field is one run of bits. -/
theorem gather_between (hx : x ∉ lits) (hc : x ≠ c) :
    gather x w (lits ++ (List.replicate n c ++ (List.replicate m x ++ List.replicate k c))) 0 =
      (w.extractLsb' k m).toNat := by
  have hskip : ∀ j, x ∉ List.replicate j c := fun j h => hc (List.eq_of_mem_replicate h)
  rw [gather_skip hx, gather_skip (hskip n), gather_replicate, ← List.append_nil (List.replicate k c),
    gather_skip (hskip k)]
  simp [gather]

end

/-- The field letters of format RI8 (R51), after the four literal bits. -/
def ri8Fields : List Slot :=
  List.replicate 4 .K ++ (List.replicate 4 .d ++ List.replicate 4 .K)

/-- A check of the one row of format RI8 in R56. -/
theorem descriptorTable_ri8 : ∀ row ∈ descriptorTable, row.id = .andi →
    row.template = row.template.take 4 ++ ri8Fields ∧
      Slot.d ∉ row.template.take 4 ∧ Slot.K ∉ row.template.take 4 := by
  decide

section
variable (opcode d : BitVec 4) (K : BitVec 8)

theorem formatRI8_extract_d : (formatRI8 opcode d K).extractLsb' 4 4 = d := by
  rw [formatRI8, BitVec.extractLsb'_append_eq_of_le le_rfl]
  exact BitVec.extractLsb'_append_eq_right

theorem formatRI8_extract_K_high : (formatRI8 opcode d K).extractLsb' 8 4 = K.extractLsb' 4 4 := by
  rw [formatRI8, BitVec.extractLsb'_append_eq_of_le (by decide), BitVec.extractLsb'_append_eq_of_le (by decide)]
  exact BitVec.extractLsb'_append_eq_right

theorem formatRI8_extract_K_low : (formatRI8 opcode d K).extractLsb' 0 4 = K.extractLsb' 0 4 :=
  BitVec.extractLsb'_append_eq_right

/-- The raw fields of a word of format RI8 under a template of that format are the fields the word was made of. -/
theorem rawFields_formatRI8 {lits : List Slot} (hd : Slot.d ∉ lits) (hK : Slot.K ∉ lits) :
    (rawFields (lits ++ ri8Fields) (formatRI8 opcode d K)).d = d.toNat ∧
      (rawFields (lits ++ ri8Fields) (formatRI8 opcode d K)).K = K.toNat := by
  constructor
  · exact (gather_between _ 4 4 4 hd (by decide)).trans (congrArg BitVec.toNat (formatRI8_extract_d opcode d K))
  · refine (gather_split _ 4 4 4 hK (by decide)).trans ?_
    rw [formatRI8_extract_K_high, formatRI8_extract_K_low, BitVec.extractLsb'_toNat, BitVec.extractLsb'_toNat,
      Nat.shiftRight_eq_div_pow]
    omega

end

theorem decode_encode_andi (d : BitVec 4) (K : BitVec 8) : decode (encode (.andi d K)) = .ok (.andi d K) := by
  obtain ⟨row, hrow, hid, hcand⟩ := Laws.LiteralBits.andi d K
  obtain ⟨htemplate, hd, hK⟩ := descriptorTable_ri8 row hrow hid
  obtain ⟨hfd, hfK⟩ := rawFields_formatRI8 0b0111 d K hd hK
  rw [← htemplate] at hfd hfK
  rw [decode_of_candidate hrow hcand, hid, instrId, InstrId.withFields, encode, hfd, hfK]
  simp

end Sys2Proof.Machine

/-! PROOFS. AND and ANDI (R100, R101): what the end the two share, a result and the flags of logic, leaves behind. -/

namespace Sys2Proof.Machine

/-- The state after a logical operation: the result in `R[d]` and the four flags of logic (R83). -/
def State.afterLogic (s : State) (d : Nat) (result : Byte) : State :=
  (s.putByte d result).putByte s.cfg.sregAddr (withFlags (logicFlags result) s.sreg)

theorem exec_and {s : State} (h : s.cfg.WellFormed) (d r : BitVec 5) :
    exec (.and d r) s = .next (s.afterLogic d.toNat (s.reg d.toNat &&& s.reg r.toNat)) :=
  execAnd_eq h d r

theorem exec_andi {s : State} (h : s.cfg.WellFormed) (d : BitVec 4) (K : BitVec 8) :
    exec (.andi d K) s = .next (s.afterLogic (16 + d.toNat) (s.reg (16 + d.toNat) &&& K)) :=
  execAndi_eq h d K

section
variable (s : State) (d : Nat) (result : Byte)

theorem afterLogic_flag {f : Flag} {b : Bool} (hf : (f, b) ∈ logicFlags result) :
    (s.afterLogic d result).flag f = b :=
  commit_flag_mem s d _ (logicFlags_nodup _) hf

theorem afterLogic_frame : UnchangedBut [d] [.s, .v, .n, .z] s (s.afterLogic d result) :=
  commit_frame _ (logicFlags result)

variable {s d}

/-- Result, four flags and frame of a logical operation, in the terms of R100 and R101. -/
theorem afterLogic_meets_rule (h : s.cfg.WellFormed) (hd : d < 32) :
    let t := s.afterLogic d result
    t.reg d = result ∧
      t.flag .z = decide (t.reg d = 0) ∧
      t.flag .n = (t.reg d).getLsbD 7 ∧
      t.flag .v = false ∧
      t.flag .s = t.flag .n ∧
      UnchangedBut [d] [.s, .v, .n, .z] s t := by
  intro t
  have hreg : t.reg d = result := commit_reg h hd _ _
  have hn : t.flag .n = negativeFlag result := afterLogic_flag s d result (by simp [logicFlags])
  have hs : t.flag .s = signFlag (negativeFlag result) false := afterLogic_flag s d result (by simp [logicFlags])
  rw [hreg]
  refine ⟨rfl, ?_, hn, ?_, ?_, afterLogic_frame s d result⟩
  · rw [← beq_eq_decide]
    exact afterLogic_flag s d result (by simp [logicFlags, zeroFlag])
  · exact afterLogic_flag s d result (by simp [logicFlags])
  · rw [hs, hn, signFlag, Bool.xor_false]

end

/-- Settles O15: AND is the logical operation whose result is `R[d] & R[r]`. -/
theorem andRunsAsSpecified : Obligations.AndRunsAsSpecified := by
  intro s d r h
  exact ⟨decode_encode_and d r, _, exec_and h d r, afterLogic_meets_rule _ h d.isLt⟩

/-- Settles O16: ANDI is the logical operation whose result is `R[16+d] & K`. -/
theorem andiRunsAsSpecified : Obligations.AndiRunsAsSpecified := by
  intro s d K h
  exact ⟨decode_encode_andi d K, _, exec_andi h d K, afterLogic_meets_rule _ h (upperRegNumber_lt d)⟩

end Sys2Proof.Machine

/-! PROOFS. BCLR (R116): its eight words, and what writing one flag of SREG leaves behind, once and twice. -/

namespace Sys2Proof.Machine

/-- A check of the eight words of BCLR under format S. -/
theorem decode_encode_bclr (k : BitVec 3) : decode (encode (.bclr k)) = .ok (.bclr k) := by
  revert k
  decide

theorem exec_bclr {s : State} (h : s.cfg.WellFormed) (k : BitVec 3) :
    exec (.bclr k) s = .next (s.putByte s.cfg.sregAddr (withFlag (Flag.ofIndex k).mask false s.sreg)) :=
  execBclr_eq h k

/-- Writing a flag again with the same value changes nothing (R31). -/
theorem withFlag_idem (mask : Byte) (b : Bool) (x : Byte) :
    withFlag mask b (withFlag mask b x) = withFlag mask b x := by
  cases b with
  | false =>
    show x &&& ~~~mask &&& ~~~mask = x &&& ~~~mask
    rw [BitVec.and_assoc, BitVec.and_self]
  | true =>
    show x ||| mask ||| mask = x ||| mask
    rw [BitVec.or_assoc, BitVec.or_self]

/-- The bit that the index of a flag names holds the value written. -/
theorem withFlag_index_same (k : BitVec 3) (b : Bool) (x : Byte) :
    (withFlag (Flag.ofIndex k).mask b x).getLsbD k.toNat = b := by
  rw [← flagMask_index, withFlag_getLsbD _ _ _ _ k.isLt, if_pos rfl]

/-- Settles O19: BCLR writes false to the one flag that `k` names, and the second write of it finds it written. -/
theorem bclrRunsAsSpecified : Obligations.BclrRunsAsSpecified := by
  intro s k h
  have hsreg := State.sreg_putByte_sreg (s := s) (withFlag (Flag.ofIndex k).mask false s.sreg)
  refine ⟨decode_encode_bclr k, _, exec_bclr h k, ?_, ?_, setFlag_frame s _ false,
    _, exec_bclr (s := s.putByte ..) h k, ?_⟩
  · rw [hsreg, ← flagMask_index]
    rfl
  · rw [hsreg, withFlag_index_same]
  · rw [State.sreg_putByte_sreg, hsreg, withFlag_idem]

end Sys2Proof.Machine

/-! PROOFS. The words of BLD and BST (format RB, R51): the literal 0 between the two field letters belongs to neither
field. -/

namespace Sys2Proof.Machine

/-- The positions of format RB (R51) after the seven literal bits: its two field letters and the literal 0 between. -/
def rbFields : List Slot :=
  List.replicate 5 .d ++ ([.zero] ++ List.replicate 3 .b)

/-- The instructions of format RB. -/
def rbIds : List InstrId := [.bld, .bst]

/-- A check of the two rows of format RB in R56. -/
theorem descriptorTable_rb : ∀ row ∈ descriptorTable, row.id ∈ rbIds →
    row.template = row.template.take 7 ++ rbFields ∧
      Slot.d ∉ row.template.take 7 ∧ Slot.b ∉ row.template.take 7 := by
  decide

section
variable (opcode : BitVec 7) (d : BitVec 5) (b : BitVec 3)

theorem formatRB_extract_d : (formatRB opcode d b).extractLsb' 4 5 = d := by
  rw [formatRB, BitVec.extractLsb'_append_eq_of_le (by decide), BitVec.extractLsb'_append_eq_of_le (by decide)]
  exact BitVec.extractLsb'_append_eq_right

theorem formatRB_extract_b : (formatRB opcode d b).extractLsb' 0 3 = b :=
  BitVec.extractLsb'_append_eq_right

/-- The raw fields of a word of format RB under a template of that format are the fields the word was made of. -/
theorem rawFields_formatRB {lits : List Slot} (hd : Slot.d ∉ lits) (hb : Slot.b ∉ lits) :
    (rawFields (lits ++ rbFields) (formatRB opcode d b)).d = d.toNat ∧
      (rawFields (lits ++ rbFields) (formatRB opcode d b)).b = b.toNat := by
  constructor
  · show gather .d _ (lits ++ rbFields) 0 = _
    rw [gather_skip hd, rbFields, gather_replicate]
    show gather .d _ ([.zero] ++ List.replicate 3 .b ++ []) (_ + (BitVec.extractLsb' 4 5 _).toNat) = _
    rw [gather_skip (by decide), formatRB_extract_d, gather]
    omega
  · show gather .b _ (lits ++ rbFields) 0 = _
    rw [gather_skip hb, rbFields, gather_skip (by decide), gather_skip (by decide)]
    show gather .b _ (List.replicate 3 .b ++ []) _ = _
    rw [gather_replicate, List.length_nil, formatRB_extract_b, gather]
    omega

end

/-- The word of an instruction of format RB decodes to its own identifier and operands. -/
theorem decode_encode_rb {i : Instr} {id : InstrId} {opcode : BitVec 7} {d : BitVec 5} {b : BitVec 3}
    (hrb : id ∈ rbIds) (hid : instrId i = id) (hi : encode i = formatRB opcode d b)
    (hlits : Laws.LiteralBits.Statement i) :
    ∃ f, decode (encode i) = .ok (id.withFields f) ∧ f.d = d.toNat ∧ f.b = b.toNat := by
  obtain ⟨row, hrow, hrowId, hcand⟩ := hlits
  obtain rfl : row.id = id := hrowId.trans hid
  obtain ⟨htemplate, hd, hb⟩ := descriptorTable_rb row hrow hrb
  refine ⟨_, decode_of_candidate hrow hcand, ?_⟩
  rw [htemplate, hi]
  exact rawFields_formatRB opcode d b hd hb

theorem decode_encode_bld (d : BitVec 5) (b : BitVec 3) : decode (encode (.bld d b)) = .ok (.bld d b) := by
  obtain ⟨f, hdecode, hd, hb⟩ := decode_encode_rb (id := .bld) (by decide) rfl rfl (Laws.LiteralBits.bld d b)
  simp [hdecode, InstrId.withFields, hd, hb]

theorem decode_encode_bst (d : BitVec 5) (b : BitVec 3) : decode (encode (.bst d b)) = .ok (.bst d b) := by
  obtain ⟨f, hdecode, hd, hb⟩ := decode_encode_rb (id := .bst) (by decide) rfl rfl (Laws.LiteralBits.bst d b)
  simp [hdecode, InstrId.withFields, hd, hb]

end Sys2Proof.Machine

/-! PROOFS. BLD and BST (R120, R121): one byte is written with one of its bits replaced, and the bit comes from the
other of the two, Rd and SREG. -/

namespace Sys2Proof.Machine

/-- BLD stores T in bit `b` of Rd as a flag is stored in SREG, by OR or AND-NOT with the bit's mask. -/
theorem exec_bld {s : State} (h : s.cfg.WellFormed) (d : BitVec 5) (b : BitVec 3) :
    exec (.bld d b) s =
      .next (s.putByte d.toNat (withFlag (flagMask b.toNat) (s.flag .t) (s.reg d.toNat))) :=
  execBld_eq h d b

theorem exec_bst {s : State} (h : s.cfg.WellFormed) (d : BitVec 5) (b : BitVec 3) :
    exec (.bst d b) s =
      .next (s.putByte s.cfg.sregAddr (withFlag Flag.t.mask ((s.reg d.toNat).getLsbD b.toNat) s.sreg)) :=
  execBst_eq h d b

/-- The frame of one byte's write outside SREG: no flag changes. -/
theorem putByte_frame {s : State} {n : Nat} (hn : n ≠ s.cfg.sregAddr) (v : Byte) :
    UnchangedBut [n] [] s (s.putByte n v) := by
  refine ⟨putByte_rest s n v, rfl, fun a ha _ => ?_, fun f _ => State.flag_putByte_other v hn f⟩
  exact Memory.read_write_other _ v (List.ne_of_not_mem_cons ha)

/-- Settles O20: BLD writes the one bit of Rd, and Rd is not SREG's cell. -/
theorem bldRunsAsSpecified : Obligations.BldRunsAsSpecified := by
  intro s d b h
  have hne : d.toNat ≠ s.cfg.sregAddr := reg_ne_sregAddr h d.isLt
  refine ⟨decode_encode_bld d b, _, exec_bld h d b, fun j hj => ?_, State.sreg_putByte_other _ hne,
    putByte_frame hne _⟩
  rw [State.reg_putByte_same, withFlag_getLsbD _ _ _ _ hj]

/-- Settles O21: BST writes the one flag T, with the bit read from Rd. -/
theorem bstRunsAsSpecified : Obligations.BstRunsAsSpecified := by
  intro s d b h
  refine ⟨decode_encode_bst d b, _, exec_bst h d b, ?_, setFlag_frame s .t _⟩
  rw [State.flag_putByte_sreg, withFlag_flag, if_pos rfl]

end Sys2Proof.Machine

/-! PROOFS. The words of BRBS and BRBC (format BR, R51): each field letter stands in one run of the template. -/

namespace Sys2Proof.Machine

/-- A field that stands in one run of the template is one run of the word's bits. -/
theorem gather_run {c : Slot} {before after : List Slot} (hbefore : c ∉ before) (hafter : c ∉ after) (w : OpWord)
    (n : Nat) : gather c w (before ++ (List.replicate n c ++ after)) 0 = (w.extractLsb' after.length n).toNat := by
  rw [gather_skip hbefore, gather_replicate, ← List.append_nil after, gather_skip hafter]
  simp [gather]

/-- The field letters of format BR (R51), after the six literal bits. -/
def brFields : List Slot :=
  List.replicate 7 .k ++ List.replicate 3 .s

/-- The instructions of format BR. -/
def brIds : List InstrId := [.brbs, .brbc]

/-- A check of the two rows of format BR in R56. -/
theorem descriptorTable_br : ∀ row ∈ descriptorTable, row.id ∈ brIds →
    row.template = row.template.take 6 ++ brFields ∧
      Slot.k ∉ row.template.take 6 ∧ Slot.s ∉ row.template.take 6 := by
  decide

section
variable (opcode : BitVec 6) (k : BitVec 7) (n : BitVec 3)

theorem formatBR_extract_k : (formatBR opcode k n).extractLsb' 3 7 = k := by
  rw [formatBR, BitVec.extractLsb'_append_eq_of_le le_rfl]
  exact BitVec.extractLsb'_append_eq_right

theorem formatBR_extract_s : (formatBR opcode k n).extractLsb' 0 3 = n :=
  BitVec.extractLsb'_append_eq_right

/-- The raw fields of a word of format BR under a template of that format are the fields the word was made of. -/
theorem rawFields_formatBR {lits : List Slot} (hk : Slot.k ∉ lits) (hs : Slot.s ∉ lits) :
    (rawFields (lits ++ brFields) (formatBR opcode k n)).k = k.toNat ∧
      (rawFields (lits ++ brFields) (formatBR opcode k n)).s = n.toNat := by
  constructor
  · exact (gather_run hk (by decide) _ 7).trans (congrArg BitVec.toNat (formatBR_extract_k opcode k n))
  · have hbefore : Slot.s ∉ lits ++ List.replicate 7 .k := by simp [hs]
    have hgather := gather_run hbefore List.not_mem_nil (formatBR opcode k n) 3
    rw [List.append_nil, List.append_assoc] at hgather
    exact hgather.trans (congrArg BitVec.toNat (formatBR_extract_s opcode k n))

end

/-- The word of an instruction of format BR decodes to its own identifier and operands. -/
theorem decode_encode_br {i : Instr} {id : InstrId} {opcode : BitVec 6} {k : BitVec 7} {n : BitVec 3}
    (hbr : id ∈ brIds) (hid : instrId i = id) (hi : encode i = formatBR opcode k n)
    (hlits : Laws.LiteralBits.Statement i) :
    ∃ f, decode (encode i) = .ok (id.withFields f) ∧ f.k = k.toNat ∧ f.s = n.toNat := by
  obtain ⟨row, hrow, hrowId, hcand⟩ := hlits
  obtain rfl : row.id = id := hrowId.trans hid
  obtain ⟨htemplate, hk, hs⟩ := descriptorTable_br row hrow hbr
  refine ⟨_, decode_of_candidate hrow hcand, ?_⟩
  rw [htemplate, hi]
  exact rawFields_formatBR opcode k n hk hs

theorem decode_encode_brbs (k : BitVec 7) (n : BitVec 3) : decode (encode (.brbs k n)) = .ok (.brbs k n) := by
  obtain ⟨f, hdecode, hk, hs⟩ := decode_encode_br (id := .brbs) (by decide) rfl rfl (Laws.LiteralBits.brbs k n)
  simp [hdecode, InstrId.withFields, hk, hs]

theorem decode_encode_brbc (k : BitVec 7) (n : BitVec 3) : decode (encode (.brbc k n)) = .ok (.brbc k n) := by
  obtain ⟨f, hdecode, hk, hs⟩ := decode_encode_br (id := .brbc) (by decide) rfl rfl (Laws.LiteralBits.brbc k n)
  simp [hdecode, InstrId.withFields, hk, hs]

end Sys2Proof.Machine

/-! PROOFS. BRBS and BRBC (R125, R126): the PC update the two share, whose condition is the one place they differ. -/

namespace Sys2Proof.Machine

/-- `sext_7` (R59) is the two's-complement value of the raw field. -/
theorem branchOffset_eq_toInt (k : BitVec 7) : branchOffset k = k.toInt := by
  rw [branchOffset, BitVec.toInt_eq_msb_cond, BitVec.msb_eq_getLsbD_last]
  rfl

/-- The flag that the index of a branch names is that bit of SREG. -/
theorem flag_ofIndex (s : State) (n : BitVec 3) : s.flag (Flag.ofIndex n) = s.sreg.getLsbD n.toNat := by
  rw [State.flag, Flag.ofIndex_bit]

theorem exec_brbs {s : State} (h : s.cfg.WellFormed) (k : BitVec 7) (n : BitVec 3) :
    exec (.brbs k n) s = .next (branchIf (s.sreg.getLsbD n.toNat) k s) := by
  rw [← flag_ofIndex]
  exact execBrbs_eq h k n

theorem exec_brbc {s : State} (h : s.cfg.WellFormed) (k : BitVec 7) (n : BitVec 3) :
    exec (.brbc k n) s = .next (branchIf (!s.sreg.getLsbD n.toNat) k s) := by
  rw [← flag_ofIndex]
  exact execBrbc_eq h k n

section
variable (s : State) (taken : Bool) (k : BitVec 7)

@[simp] theorem branchIf_sreg : (branchIf taken k s).sreg = s.sreg := by
  rw [State.sreg, branchIf_cfg, branchIf_dmem, State.sreg]

@[simp] theorem branchIf_flag (f : Flag) : (branchIf taken k s).flag f = s.flag f := by
  rw [State.flag, branchIf_sreg, State.flag]

/-- The branch's PC read as an integer, taken and not taken. -/
theorem branchIf_pc_cast :
    ((branchIf taken k s).pc : Int) =
      (if taken = true then (s.pc : Int) + k.toInt + 1 else s.pc + 1) % 2 ^ s.cfg.pcBits := by
  cases taken with
  | false => exact setPc_pc_cast s _
  | true =>
    rw [← branchOffset_eq_toInt]
    exact setPc_pc_cast s _

theorem branchIf_frame :
    (branchIf taken k s).sreg = s.sreg ∧ RestUnchanged s (branchIf taken k s) ∧
      DataUnchangedBut [] [] s (branchIf taken k s) := by
  refine ⟨branchIf_sreg s taken k, branchIf_rest taken k s, fun a _ _ => ?_, fun f _ => branchIf_flag s taken k f⟩
  rw [branchIf_dmem]

end

/-- Settles O22: BRBS takes the shared PC update on bit `s` of SREG. -/
theorem brbsRunsAsSpecified : Obligations.BrbsRunsAsSpecified := by
  intro s k n h
  exact ⟨decode_encode_brbs k n, _, exec_brbs h k n, branchIf_pc_cast s _ k, branchIf_frame s _ k⟩

/-- Settles O23: BRBC takes the shared PC update on the complement of bit `s` of SREG. -/
theorem brbcRunsAsSpecified : Obligations.BrbcRunsAsSpecified := by
  intro s k n h
  refine ⟨decode_encode_brbc k n, _, exec_brbc h k n, ?_, branchIf_frame s _ k⟩
  simp only [branchIf_pc_cast, Bool.not_eq_true']

end Sys2Proof.Machine

/-! PROOFS. The host's access to registers and flags (R145, R146): inside its domain each operation is the access
primitive of the cell. -/

namespace Sys2Proof.Machine

section
variable {s : State} {index : Nat}

theorem readRegister_ok (hwf : s.cfg.WellFormed) (h : index ≤ 31) : readRegister index s = .ok (s.reg index) := by
  rw [readRegister, if_pos h, readReg_ok hwf (Nat.lt_succ_of_le h)]

theorem writeRegister_ok (hwf : s.cfg.WellFormed) (v : Byte) (h : index ≤ 31) :
    writeRegister index v s = .ok (s.putByte index v) := by
  rw [writeRegister, if_pos h, writeReg_ok hwf v (Nat.lt_succ_of_le h)]

theorem readRegister_error (h : 31 < index) :
    readRegister index s = .error (.invalidOperand (Config.invalidOperandDetail false index)) :=
  if_neg h.not_ge

theorem writeRegister_error (v : Byte) (h : 31 < index) :
    writeRegister index v s = .error (.invalidOperand (Config.invalidOperandDetail true index)) :=
  if_neg h.not_ge

end

/-- Settles O51: the register's cell is inside data memory and is not SREG's, so the write reads back and touches no
flag; above 31 both answer the free detail. -/
theorem hostRegisterAccess : Obligations.HostRegisterAccess := by
  intro s index v hwf
  refine ⟨fun h => ⟨readRegister_ok hwf h, _, writeRegister_ok hwf v h, ?_, ?_⟩,
    fun h => ⟨⟨_, readRegister_error h⟩, _, writeRegister_error v h⟩⟩
  · rw [readRegister_ok (s := s.putByte index v) hwf h, State.reg_putByte_same]
  · exact putByte_frame (reg_ne_sregAddr hwf (Nat.lt_succ_of_le h)) v

/-- Settles O52: the flag read answers the flag of the state, which is the bit of SREG at the flag's position (R14). -/
theorem hostFlagRead : Obligations.HostFlagRead := by
  intro s hwf
  have hread : ∀ f : Flag, readFlag f s = .ok (s.sreg.getLsbD f.bit) := readFlagMask_flag hwf
  exact ⟨hread .c, hread .z, hread .n, hread .v, hread .s, hread .h, hread .t, hread .i⟩

end Sys2Proof.Machine

/-! PROOFS. The one PC update of a successful step (R139): a branch's handler makes it, and for every other instruction
the handler leaves the PC alone and the engine makes it. -/

namespace Sys2Proof.Machine

/-- A call of `executeOne` that returns Ok ran one decoded instruction in a well-formed configuration, and nothing else
than its handler and the engine's PC update. -/
theorem executeOne_ok_cases {s t : State} (h : executeOne s = some (t, .ok ())) :
    s.cfg.WellFormed ∧
      ∃ w i u, fetch s = .ok w ∧ decode w = .ok i ∧ exec i s = .next u ∧ t = advancePc i u := by
  unfold executeOne at h
  cases hstep : step s with
  | fault f => simp [hstep] at h
  | refused r => simp [hstep] at h
  | next v =>
    simp only [hstep, Option.some.injEq, Prod.mk.injEq] at h
    obtain ⟨rfl, hresult⟩ := h
    obtain ⟨hwf, -, ⟨f, -, rfl⟩ | hran⟩ := step_next_cases hstep
    · simp at hresult
    · exact ⟨hwf, hran⟩

section
variable {s u : State} {i : Instr}

/-- A handler that does not own the PC update answers a state with the PC as it was. -/
theorem exec_next_same_pc (hwf : s.cfg.WellFormed) (hi : ownsPc i = false) :
    ∃ u, exec i s = .next u ∧ u.pc = s.pc := by
  cases i with
  | add d r => exact ⟨_, execAdd_eq hwf d r, rfl⟩
  | adc d r => exact ⟨_, execAdc_eq hwf d r, rfl⟩
  | adiw d K => exact ⟨_, execAdiw_eq hwf d K, rfl⟩
  | and d r => exact ⟨_, execAnd_eq hwf d r, rfl⟩
  | andi d K => exact ⟨_, execAndi_eq hwf d K, rfl⟩
  | asr d => exact ⟨_, execAsr_eq hwf d, rfl⟩
  | bset k => exact ⟨_, execBset_eq hwf k, rfl⟩
  | bclr k => exact ⟨_, execBclr_eq hwf k, rfl⟩
  | bld d b => exact ⟨_, execBld_eq hwf d b, rfl⟩
  | bst d b => exact ⟨_, execBst_eq hwf d b, rfl⟩
  | brbs k n => cases hi
  | brbc k n => cases hi

theorem exec_next_rest (hx : exec i s = .next u) : RestUnchanged s u := by
  rcases exec_cases i s with ⟨v, hv, hrest⟩ | ⟨a, ha⟩
  · obtain rfl : v = u := by simpa [hv] using hx
    exact hrest
  · simp [ha] at hx

/-- After an instruction that is no branch, the engine's update stores `PC + 1`, read as an integer. -/
theorem advancePc_exec_pc_cast (hwf : s.cfg.WellFormed) (hi : ownsPc i = false) (hx : exec i s = .next u) :
    ((advancePc i u).pc : Int) = ((s.pc : Int) + 1) % 2 ^ s.cfg.pcBits := by
  obtain ⟨v, hv, hpc⟩ := exec_next_same_pc hwf hi
  obtain rfl : v = u := by simpa [hv] using hx
  obtain ⟨hcfg, -, -⟩ := exec_next_rest hx
  rw [advancePc, hi, if_neg Bool.false_ne_true, setPc_pc_cast, hpc, hcfg]

end

/-- Settles O39: the branches' own update is `branchIf`, which the engine leaves alone, and every other instruction gets
the engine's. -/
theorem everyExecutionUpdatesThePcOnce : Obligations.EveryExecutionUpdatesThePcOnce := by
  intro s t h
  obtain ⟨hwf, w, i, u, hfetch, hdecode, hx, rfl⟩ := executeOne_ok_cases h
  refine ⟨w, i, hfetch, hdecode, ?_⟩
  cases i with
  | brbs k n =>
    rw [exec_brbs hwf] at hx
    cases hx
    exact branchIf_pc_cast s _ k
  | brbc k n =>
    rw [exec_brbc hwf] at hx
    cases hx
    have hpc := branchIf_pc_cast s (!s.sreg.getLsbD n.toNat) k
    simp only [Bool.not_eq_true'] at hpc
    exact hpc
  | _ => exact advancePc_exec_pc_cast hwf rfl hx

end Sys2Proof.Machine

/-! PROOFS. The decoder read off the word (R52, R53): which runs of a word are the literal bits of a descriptor, and
which are its fields. -/

namespace Sys2Proof.Machine

/-- The runs of a word that a descriptor's literal bits fix (R51, R56), as the formats of the encoder hold them. -/
def HasLiterals (w : OpWord) : InstrId → Prop
  | .add => w.extractLsb' 10 6 = 0b000011#6
  | .adc => w.extractLsb' 10 6 = 0b000111#6
  | .adiw => w.extractLsb' 8 8 = 0b10010110#8
  | .and => w.extractLsb' 10 6 = 0b001000#6
  | .andi => w.extractLsb' 12 4 = 0b0111#4
  | .asr => w.extractLsb' 9 7 = 0b1001010#7 ∧ w.extractLsb' 0 4 = 0b0101#4
  | .bset => w.extractLsb' 7 9 = 0b100101000#9 ∧ w.extractLsb' 0 4 = 0b1000#4
  | .bclr => w.extractLsb' 7 9 = 0b100101001#9 ∧ w.extractLsb' 0 4 = 0b1000#4
  | .bld => w.extractLsb' 9 7 = 0b1111100#7 ∧ w.extractLsb' 3 1 = 0#1
  | .bst => w.extractLsb' 9 7 = 0b1111101#7 ∧ w.extractLsb' 3 1 = 0#1
  | .brbs => w.extractLsb' 10 6 = 0b111100#6
  | .brbc => w.extractLsb' 10 6 = 0b111101#6

/-- The instruction of an identifier whose raw fields are the word's bits at the positions of R51. -/
def instrOfWord (w : OpWord) : InstrId → Instr
  | .add => .add (w.extractLsb' 4 5) (w.extractLsb' 9 1 ++ w.extractLsb' 0 4)
  | .adc => .adc (w.extractLsb' 4 5) (w.extractLsb' 9 1 ++ w.extractLsb' 0 4)
  | .adiw => .adiw (w.extractLsb' 4 2) (w.extractLsb' 6 2 ++ w.extractLsb' 0 4)
  | .and => .and (w.extractLsb' 4 5) (w.extractLsb' 9 1 ++ w.extractLsb' 0 4)
  | .andi => .andi (w.extractLsb' 4 4) (w.extractLsb' 8 4 ++ w.extractLsb' 0 4)
  | .asr => .asr (w.extractLsb' 4 5)
  | .bset => .bset (w.extractLsb' 4 3)
  | .bclr => .bclr (w.extractLsb' 4 3)
  | .bld => .bld (w.extractLsb' 4 5) (w.extractLsb' 0 3)
  | .bst => .bst (w.extractLsb' 4 5) (w.extractLsb' 0 3)
  | .brbs => .brbs (w.extractLsb' 3 7) (w.extractLsb' 0 3)
  | .brbc => .brbc (w.extractLsb' 3 7) (w.extractLsb' 0 3)

/-! The candidate test of R52 on the runs of literal bits. -/

/-- The mask of the `n` bits from position `lo`. -/
def runMask (lo n : Nat) : OpWord := (BitVec.allOnes n).setWidth 16 <<< lo

/-- The word with `v` in the `n` bits from position `lo`, and 0 elsewhere. -/
def runValue (lo : Nat) {n : Nat} (v : BitVec n) : OpWord := v.setWidth 16 <<< lo

section
variable (w : OpWord)

/-- A masked comparison of one run compares the run. -/
theorem and_runMask_eq_iff {lo n : Nat} (v : BitVec n) (h : lo + n ≤ 16) :
    w &&& runMask lo n = runValue lo v ↔ w.extractLsb' lo n = v := by
  simp only [BitVec.eq_of_getLsbD_eq_iff, runMask, runValue, BitVec.getLsbD_and, BitVec.getLsbD_shiftLeft,
    BitVec.getLsbD_setWidth, BitVec.getLsbD_allOnes, BitVec.getLsbD_extractLsb']
  constructor
  · intro hbits j hj
    simpa [hj, show lo + j < 16 by omega, show j < 16 by omega] using hbits (lo + j) (by omega)
  · intro hbits p hp
    by_cases hlo : p < lo
    · simp [hlo]
    · by_cases hj : p - lo < n
      · simpa [hlo, hj, hp, show p - lo < 16 by omega, show lo + (p - lo) = p by omega] using hbits (p - lo) hj
      · simp [hj, BitVec.getLsbD_of_ge v (p - lo) (by omega)]

/-- A masked comparison whose mask is in two parts compares each part. -/
theorem and_or_eq_or_iff {m m' p p' : OpWord} (hp : p &&& m = p) (hp' : p' &&& m' = p') (hm : m &&& m' = 0#16) :
    w &&& (m ||| m') = p ||| p' ↔ w &&& m = p ∧ w &&& m' = p' := by
  have hbit : ∀ w m m' p p' : Bool, (p && m) = p → (p' && m') = p' → (m && m') = false →
      ((w && (m || m')) = (p || p') ↔ (w && m) = p ∧ (w && m') = p') := by decide
  simp only [BitVec.eq_of_getLsbD_eq_iff, BitVec.getLsbD_and, BitVec.getLsbD_or, BitVec.getLsbD_zero] at *
  rw [← forall₂_and]
  exact forall₂_congr fun i hi => hbit _ _ _ _ _ (hp i hi) (hp' i hi) (hm i hi)

/-- A descriptor whose literal bits are one run. -/
theorem candidate_iff_run {row : Descriptor} (lo : Nat) {n : Nat} (v : BitVec n) (h : lo + n ≤ 16)
    (hmask : row.mask = runMask lo n) (hpattern : row.pattern = runValue lo v) :
    row.candidate w = true ↔ w.extractLsb' lo n = v := by
  rw [Descriptor.candidate, beq_iff_eq, hmask, hpattern, and_runMask_eq_iff w v h]

/-- A descriptor whose literal bits are two runs. -/
theorem candidate_iff_two_runs {row : Descriptor} (lo lo' : Nat) {n n' : Nat} (v : BitVec n) (v' : BitVec n')
    (h : lo + n ≤ 16) (h' : lo' + n' ≤ lo) (hmask : row.mask = runMask lo n ||| runMask lo' n')
    (hpattern : row.pattern = runValue lo v ||| runValue lo' v')
    (hp : runValue lo v &&& runMask lo n = runValue lo v)
    (hp' : runValue lo' v' &&& runMask lo' n' = runValue lo' v') (hm : runMask lo n &&& runMask lo' n' = 0) :
    row.candidate w = true ↔ w.extractLsb' lo n = v ∧ w.extractLsb' lo' n' = v' := by
  rw [Descriptor.candidate, beq_iff_eq, hmask, hpattern, and_or_eq_or_iff w hp hp' hm, and_runMask_eq_iff w v h,
    and_runMask_eq_iff w v' (by omega)]

/-- The mask and match that R56 prints for each row test exactly its runs of literal bits. -/
theorem candidate_iff_hasLiterals :
    ∀ row ∈ descriptorTable, (row.candidate w = true ↔ HasLiterals w row.id) := by
  simp only [descriptorTable, aluDescriptors, bitDescriptors, List.cons_append, List.nil_append, List.forall_mem_cons]
  refine ⟨?add, ?adc, ?adiw, ?and, ?andi, ?asr, ?bset, ?bclr, ?bld, ?bst, ?brbs, ?brbc, by simp⟩
  case add | adc | and | brbs | brbc => exact candidate_iff_run w 10 _ le_rfl rfl rfl
  case adiw => exact candidate_iff_run w 8 _ le_rfl rfl rfl
  case andi => exact candidate_iff_run w 12 _ le_rfl rfl rfl
  case asr => exact candidate_iff_two_runs w 9 0 _ _ le_rfl (by decide) rfl rfl rfl rfl rfl
  case bset | bclr => exact candidate_iff_two_runs w 7 0 _ _ le_rfl (by decide) rfl rfl rfl rfl rfl
  case bld | bst => exact candidate_iff_two_runs w 9 3 _ _ le_rfl (by decide) rfl rfl rfl rfl rfl

end

/-! The raw fields of R53, gathered along a template, as runs of the word. -/

section
variable {before after : List Slot} {c x : Slot} (w : OpWord)

theorem ofNat_gather_run (n : Nat) (hbefore : c ∉ before) (hafter : c ∉ after) :
    BitVec.ofNat n (gather c w (before ++ (List.replicate n c ++ after)) 0) = w.extractLsb' after.length n := by
  rw [gather_run hbefore hafter, BitVec.ofNat_toNat, BitVec.setWidth_eq]

theorem ofNat_gather_last {mid : List Slot} (n : Nat) (hbefore : c ∉ before) (hmid : c ∉ mid) :
    BitVec.ofNat n (gather c w (before ++ (mid ++ List.replicate n c)) 0) = w.extractLsb' 0 n := by
  have hskip : c ∉ before ++ mid := by simp [hbefore, hmid]
  rw [← List.append_assoc, ← List.append_nil (List.replicate n c)]
  exact ofNat_gather_run w n hskip List.not_mem_nil

theorem ofNat_gather_between (n m k : Nat) (hx : x ∉ before) (hc : x ≠ c) :
    BitVec.ofNat m (gather x w (before ++ (List.replicate n c ++ (List.replicate m x ++ List.replicate k c))) 0) =
      w.extractLsb' k m := by
  rw [gather_between w n m k hx hc, BitVec.ofNat_toNat, BitVec.setWidth_eq]

theorem ofNat_gather_split (n m k : Nat) (hc : c ∉ before) (hx : c ≠ x) :
    BitVec.ofNat (n + k)
        (gather c w (before ++ (List.replicate n c ++ (List.replicate m x ++ List.replicate k c))) 0) =
      w.extractLsb' (m + k) n ++ w.extractLsb' 0 k := by
  have happend : (w.extractLsb' (m + k) n).toNat * 2 ^ k + (w.extractLsb' 0 k).toNat =
      (w.extractLsb' (m + k) n ++ w.extractLsb' 0 k).toNat := by
    rw [BitVec.toNat_append, ← Nat.shiftLeft_add_eq_or_of_lt (BitVec.isLt _), Nat.shiftLeft_eq]
  rw [gather_split w n m k hc hx, happend, BitVec.ofNat_toNat, BitVec.setWidth_eq]

end

/-- A check of the one row of format WI6 in R56. -/
theorem descriptorTable_wi6 : ∀ row ∈ descriptorTable, row.id = .adiw →
    row.template = row.template.take 8 ++
        (List.replicate 2 .K ++ (List.replicate 2 .d ++ List.replicate 4 .K)) ∧
      Slot.d ∉ row.template.take 8 ∧ Slot.K ∉ row.template.take 8 := by
  decide

/-- A check of the one row of format R1 in R56. -/
theorem descriptorTable_r1 : ∀ row ∈ descriptorTable, row.id = .asr →
    row.template = row.template.take 7 ++ (List.replicate 5 .d ++ [.zero, .one, .zero, .one]) ∧
      Slot.d ∉ row.template.take 7 := by
  decide

/-- The instructions of format S. -/
def sIds : List InstrId := [.bset, .bclr]

/-- A check of the two rows of format S in R56. -/
theorem descriptorTable_s : ∀ row ∈ descriptorTable, row.id ∈ sIds →
    row.template = row.template.take 9 ++ (List.replicate 3 .s ++ [.one, .zero, .zero, .zero]) ∧
      Slot.s ∉ row.template.take 9 := by
  decide

/-- Along the template of each row of R56, R53 gathers the fields of R51. -/
theorem withFields_rawFields (w : OpWord) {row : Descriptor} (hrow : row ∈ descriptorTable) :
    row.id.withFields (rawFields row.template w) = instrOfWord w row.id := by
  cases hid : row.id with
  | add | adc | and =>
    obtain ⟨htemplate, hd, hr⟩ := descriptorTable_rr row hrow (by simp [hid, rrIds])
    rw [htemplate]
    exact congrArg₂ _ (ofNat_gather_between w 1 5 4 hd (by decide)) (ofNat_gather_split w 1 5 4 hr (by decide))
  | adiw =>
    obtain ⟨htemplate, hd, hK⟩ := descriptorTable_wi6 row hrow hid
    rw [htemplate]
    exact congrArg₂ _ (ofNat_gather_between w 2 2 4 hd (by decide)) (ofNat_gather_split w 2 2 4 hK (by decide))
  | andi =>
    obtain ⟨htemplate, hd, hK⟩ := descriptorTable_ri8 row hrow hid
    rw [htemplate]
    exact congrArg₂ _ (ofNat_gather_between w 4 4 4 hd (by decide)) (ofNat_gather_split w 4 4 4 hK (by decide))
  | asr =>
    obtain ⟨htemplate, hd⟩ := descriptorTable_r1 row hrow hid
    rw [htemplate]
    exact congrArg _ (ofNat_gather_run w 5 hd (by decide))
  | bset | bclr =>
    obtain ⟨htemplate, hs⟩ := descriptorTable_s row hrow (by simp [hid, sIds])
    rw [htemplate]
    exact congrArg _ (ofNat_gather_run w 3 hs (by decide))
  | bld | bst =>
    obtain ⟨htemplate, hd, hb⟩ := descriptorTable_rb row hrow (by simp [hid, rbIds])
    have hmid : Slot.b ∉ List.replicate 5 Slot.d ++ [.zero] := by decide
    rw [htemplate]
    exact congrArg₂ _ (ofNat_gather_run w 5 hd (by decide)) (ofNat_gather_last w 3 hb hmid)
  | brbs | brbc =>
    obtain ⟨htemplate, hk, hs⟩ := descriptorTable_br row hrow (by simp [hid, brIds])
    have hmid : Slot.s ∉ List.replicate 7 Slot.k := by decide
    rw [htemplate]
    exact congrArg₂ _ (ofNat_gather_run w 7 hk (by decide)) (ofNat_gather_last w 3 hs hmid)

/-- A check that R56 has a row of each identifier. -/
theorem descriptorTable_has_row (id : InstrId) : ∃ row ∈ descriptorTable, row.id = id := by
  cases id <;> decide

/-- R52 to R55: the decoder answers for exactly the words with the literal bits of an identifier, with
the fields of R51. -/
theorem decode_ok_iff (w : OpWord) (i : Instr) :
    decode w = .ok i ↔ ∃ id, HasLiterals w id ∧ i = instrOfWord w id := by
  constructor
  · intro h
    unfold decode at h
    split at h
    · next row hfind =>
      have hrow := List.mem_of_find?_eq_some hfind
      have hcandidate : row.candidate w = true := by simpa using List.find?_some hfind
      rw [withFields_rawFields w hrow] at h
      cases h
      exact ⟨row.id, (candidate_iff_hasLiterals w row hrow).mp hcandidate, rfl⟩
    · cases h
  · rintro ⟨id, hlits, rfl⟩
    obtain ⟨row, hrow, rfl⟩ := descriptorTable_has_row id
    rw [decode_of_candidate hrow ((candidate_iff_hasLiterals w row hrow).mpr hlits), withFields_rawFields w hrow]

end Sys2Proof.Machine

/-! PROOFS. From a word to its instruction: the word made of a word's own literals and fields is that word (R51). -/

namespace Sys2Proof.Machine

section
variable {w : OpWord}

theorem formatRR_of_word {opcode : BitVec 6} (h : w.extractLsb' 10 6 = opcode) :
    formatRR opcode (w.extractLsb' 4 5) (w.extractLsb' 9 1 ++ w.extractLsb' 0 4) = w := by
  subst h
  simp only [formatRR, BitVec.extractLsb'_append_eq_left, BitVec.extractLsb'_append_eq_right,
    BitVec.extractLsb'_append_extractLsb'_eq_extractLsb']
  exact BitVec.extractLsb'_eq_self

theorem formatWI6_of_word {opcode : BitVec 8} (h : w.extractLsb' 8 8 = opcode) :
    formatWI6 opcode (w.extractLsb' 4 2) (w.extractLsb' 6 2 ++ w.extractLsb' 0 4) = w := by
  subst h
  simp only [formatWI6, BitVec.extractLsb'_append_eq_left, BitVec.extractLsb'_append_eq_right,
    BitVec.extractLsb'_append_extractLsb'_eq_extractLsb']
  exact BitVec.extractLsb'_eq_self

theorem formatRI8_of_word {opcode : BitVec 4} (h : w.extractLsb' 12 4 = opcode) :
    formatRI8 opcode (w.extractLsb' 4 4) (w.extractLsb' 8 4 ++ w.extractLsb' 0 4) = w := by
  subst h
  simp only [formatRI8, BitVec.extractLsb'_append_eq_left, BitVec.extractLsb'_append_eq_right,
    BitVec.extractLsb'_append_extractLsb'_eq_extractLsb']
  exact BitVec.extractLsb'_eq_self

theorem formatR1_of_word {high : BitVec 7} {low : BitVec 4} (h : w.extractLsb' 9 7 = high ∧ w.extractLsb' 0 4 = low) :
    formatR1 high (w.extractLsb' 4 5) low = w := by
  obtain ⟨rfl, rfl⟩ := h
  simp only [formatR1, BitVec.extractLsb'_append_extractLsb'_eq_extractLsb']
  exact BitVec.extractLsb'_eq_self

theorem formatS_of_word {high : BitVec 9} {low : BitVec 4} (h : w.extractLsb' 7 9 = high ∧ w.extractLsb' 0 4 = low) :
    formatS high (w.extractLsb' 4 3) low = w := by
  obtain ⟨rfl, rfl⟩ := h
  simp only [formatS, BitVec.extractLsb'_append_extractLsb'_eq_extractLsb']
  exact BitVec.extractLsb'_eq_self

theorem formatRB_of_word {opcode : BitVec 7} (h : w.extractLsb' 9 7 = opcode ∧ w.extractLsb' 3 1 = 0#1) :
    formatRB opcode (w.extractLsb' 4 5) (w.extractLsb' 0 3) = w := by
  obtain ⟨rfl, hzero⟩ := h
  simp only [formatRB, ← hzero, BitVec.extractLsb'_append_extractLsb'_eq_extractLsb']
  exact BitVec.extractLsb'_eq_self

theorem formatBR_of_word {opcode : BitVec 6} (h : w.extractLsb' 10 6 = opcode) :
    formatBR opcode (w.extractLsb' 3 7) (w.extractLsb' 0 3) = w := by
  subst h
  simp only [formatBR, BitVec.extractLsb'_append_extractLsb'_eq_extractLsb']
  exact BitVec.extractLsb'_eq_self

theorem encode_instrOfWord {id : InstrId} (h : HasLiterals w id) : encode (instrOfWord w id) = w := by
  cases id with
  | add | adc | and => exact formatRR_of_word h
  | adiw => exact formatWI6_of_word h
  | andi => exact formatRI8_of_word h
  | asr => exact formatR1_of_word h
  | bset | bclr => exact formatS_of_word h
  | bld | bst => exact formatRB_of_word h
  | brbs | brbc => exact formatBR_of_word h

end

/-- Settles O2: a word that decodes is the word of its own literals and fields. -/
theorem encodeOfDecodeIsTheWord : Obligations.EncodeOfDecodeIsTheWord := by
  intro w i h
  obtain ⟨id, hlits, rfl⟩ := (decode_ok_iff w i).mp h
  exact encode_instrOfWord hlits

/-- Settles O5: the fields of a decoded instruction are runs of its word, identifier by identifier. -/
theorem decodedFieldsAreTheWordsBits : Obligations.DecodedFieldsAreTheWordsBits := by
  intro w i h
  obtain ⟨id, -, rfl⟩ := (decode_ok_iff w i).mp h
  cases id with
  | asr | bset | bclr => exact rfl
  | _ => exact ⟨rfl, rfl⟩

/-- Settles O3: two rows with the same literal bits at every position that both fix are one row. -/
theorem noWordMatchesTwoDescriptors : Obligations.NoWordMatchesTwoDescriptors :=
  fun _ _ hp _ hq hpw hqw => candidate_unique hp hq hpw hqw

end Sys2Proof.Machine

/-! PROOFS. From an instruction to its word: the words of the formats WI6, R1 and S decode to the operands they were
made of, as those of the other formats do. -/

namespace Sys2Proof.Machine

/-- A word that is made of an instruction's literals and fields decodes to it. -/
theorem decode_encode_of_fields {i : Instr} (hlits : HasLiterals (encode i) (instrId i))
    (hfields : instrOfWord (encode i) (instrId i) = i) : decode (encode i) = .ok i :=
  (decode_ok_iff _ _).mpr ⟨instrId i, hlits, hfields.symm⟩

section
variable {n m k : Nat} (a : BitVec n) (b : BitVec m) (c : BitVec k)

theorem extract_middle : (a ++ b ++ c).extractLsb' k m = b := by
  rw [BitVec.extractLsb'_append_eq_of_le le_rfl, Nat.sub_self, BitVec.extractLsb'_append_eq_right]

theorem extract_high : (a ++ b ++ c).extractLsb' (k + m) n = a := by
  rw [BitVec.extractLsb'_append_eq_of_le (Nat.le_add_right k m), Nat.add_sub_cancel_left,
    BitVec.extractLsb'_append_eq_left]

end

theorem decode_encode_adiw (d : BitVec 2) (K : BitVec 6) : decode (encode (.adiw d K)) = .ok (.adiw d K) := by
  have hopcode : (encode (.adiw d K)).extractLsb' 8 8 = 0b10010110#8 :=
    (BitVec.extractLsb'_append_eq_of_le (by decide)).trans (extract_high _ _ d)
  have hhigh : (encode (.adiw d K)).extractLsb' 6 2 = K.extractLsb' 4 2 :=
    (BitVec.extractLsb'_append_eq_of_le (by decide)).trans (extract_middle _ _ d)
  have hlow : (encode (.adiw d K)).extractLsb' 0 4 = K.extractLsb' 0 4 := BitVec.extractLsb'_append_eq_right
  refine decode_encode_of_fields hopcode ?_
  rw [instrId, instrOfWord, hhigh, hlow]
  exact congrArg₂ Instr.adiw (extract_middle _ d _) BitVec.extractLsb'_append_extractLsb'

theorem decode_encode_asr (d : BitVec 5) : decode (encode (.asr d)) = .ok (.asr d) :=
  decode_encode_of_fields ⟨extract_high _ d _, BitVec.extractLsb'_append_eq_right⟩
    (congrArg Instr.asr (extract_middle _ d _))

theorem decode_encode_bset (k : BitVec 3) : decode (encode (.bset k)) = .ok (.bset k) :=
  decode_encode_of_fields ⟨extract_high _ k _, BitVec.extractLsb'_append_eq_right⟩
    (congrArg Instr.bset (extract_middle _ k _))

/-- Settles O1: each instruction's word has its identifier's literals, and its operands at the positions of R51. -/
theorem decodeOfEncodeIsTheInstruction : Obligations.DecodeOfEncodeIsTheInstruction := by
  intro i
  cases i with
  | add d r => exact decode_encode_add d r
  | adc d r => exact decode_encode_adc d r
  | adiw d K => exact decode_encode_adiw d K
  | and d r => exact decode_encode_and d r
  | andi d K => exact decode_encode_andi d K
  | asr d => exact decode_encode_asr d
  | bset k => exact decode_encode_bset k
  | bclr k => exact decode_encode_bclr k
  | bld d b => exact decode_encode_bld d b
  | bst d b => exact decode_encode_bst d b
  | brbs k n => exact decode_encode_brbs k n
  | brbc k n => exact decode_encode_brbc k n

/-- Settles O8: each word is the encoding of its instruction. -/
theorem writtenOutWordsDecode : Obligations.WrittenOutWordsDecode :=
  ⟨decode_encode_add 1 2, decode_encode_andi 5 0xAC, decode_encode_asr 20, decode_encode_bset 6,
    decode_encode_bst 31 7, decode_encode_brbc 0x7D 1⟩

end Sys2Proof.Machine

/-! PROOFS. The opcode map in prose under R56: a run of literal bits that holds the top nibble is that nibble and the
rest. -/

namespace Sys2Proof.Machine

theorem extract_eq_append_iff (w : OpWord) (lo : Nat) {n m : Nat} (a : BitVec n) (b : BitVec m) :
    w.extractLsb' lo (n + m) = a ++ b ↔ w.extractLsb' (lo + m) n = a ∧ w.extractLsb' lo m = b := by
  rw [← BitVec.extractLsb'_append_extractLsb'_eq_extractLsb' rfl]
  constructor
  · intro h
    have hhigh := congrArg (BitVec.extractLsb' m n) h
    have hlow := congrArg (BitVec.extractLsb' 0 m) h
    simp only [BitVec.extractLsb'_append_eq_left, BitVec.extractLsb'_append_eq_right] at hhigh hlow
    exact ⟨hhigh, hlow⟩
  · rintro ⟨rfl, rfl⟩
    rfl

/-- The identifiers, grouped by the top nibble of their words. -/
theorem exists_instrId_iff (p : InstrId → Prop) :
    (∃ id, p id) ↔ p .add ∨ p .adc ∨ p .and ∨ p .andi ∨ (p .adiw ∨ p .asr ∨ p .bset ∨ p .bclr) ∨
      (p .brbs ∨ p .brbc ∨ p .bld ∨ p .bst) := by
  constructor
  · rintro ⟨id, h⟩
    cases id <;> simp [h]
  · rintro (h | h | h | h | (h | h | h | h) | h | h | h | h) <;> exact ⟨_, h⟩

/-- Settles O6: the literal runs of each identifier, with the top nibble split off. -/
theorem opcodeMapByTopNibble : Obligations.OpcodeMapByTopNibble := by
  intro w
  have hdecodes : (∃ i, decode w = .ok i) ↔ ∃ id, HasLiterals w id := by
    simp only [decode_ok_iff]
    exact ⟨fun ⟨_, id, hlits, _⟩ => ⟨id, hlits⟩, fun ⟨id, hlits⟩ => ⟨_, id, hlits, rfl⟩⟩
  have hnibble {lo n : Nat} (hlo : lo + n = 12) (a : BitVec 4) (b : BitVec n) :
      w.extractLsb' lo (4 + n) = a ++ b ↔ w.extractLsb' 12 4 = a ∧ w.extractLsb' lo n = b :=
    hlo ▸ extract_eq_append_iff w lo a b
  have hbit3 : w.extractLsb' 3 1 = 0#1 ↔ w.getLsbD 3 = false := by
    rw [BitVec.getLsbD_eq_extractLsb']
    generalize w.extractLsb' 3 1 = x
    revert x
    decide
  rw [hdecodes, exists_instrId_iff]
  simp only [and_or_left]
  refine or_congr (hnibble (lo := 10) rfl 0b0000#4 0b11#2) (or_congr (hnibble (lo := 10) rfl 0b0001#4 0b11#2)
    (or_congr (hnibble (lo := 10) rfl 0b0010#4 0b00#2) (or_congr Iff.rfl (or_congr ?nibble9 ?nibbleF))))
  case nibble9 =>
    refine or_congr (hnibble (lo := 8) rfl 0b1001#4 0b0110#4) (or_congr ?asr (or_congr ?bset ?bclr))
    case asr => exact (and_congr_left' (hnibble (lo := 9) rfl 0b1001#4 0b010#3)).trans and_assoc
    case bset => exact (and_congr_left' (hnibble (lo := 7) rfl 0b1001#4 0b01000#5)).trans and_assoc
    case bclr => exact (and_congr_left' (hnibble (lo := 7) rfl 0b1001#4 0b01001#5)).trans and_assoc
  case nibbleF =>
    refine or_congr (hnibble (lo := 10) rfl 0b1111#4 0b00#2) (or_congr (hnibble (lo := 10) rfl 0b1111#4 0b01#2)
      (or_congr ?bld ?bst))
    case bld => exact (and_congr (hnibble (lo := 9) rfl 0b1111#4 0b100#3) hbit3).trans and_assoc
    case bst => exact (and_congr (hnibble (lo := 9) rfl 0b1111#4 0b101#3) hbit3).trans and_assoc

end Sys2Proof.Machine

/-! PROOFS. What a handler writes, said once for all instructions (R58, R85, R139): one that leaves the PC alone writes
its registers and then its flags, and a branch writes the PC. -/

namespace Sys2Proof.Machine

/-- The register writes of an instruction, in their order. -/
def registerWrites (s : State) : Instr → List (Nat × Byte)
  | .add d r => [(d.toNat, addResult (s.reg d.toNat) (s.reg r.toNat) false)]
  | .adc d r => [(d.toNat, addResult (s.reg d.toNat) (s.reg r.toNat) (s.flag .c))]
  | .adiw d K =>
    let lo := 24 + 2 * d.toNat
    let res := wordResult (s.reg (lo + 1) ++ s.reg lo) K
    [(lo, lowByte res), (lo + 1, highByte res)]
  | .and d r => [(d.toNat, s.reg d.toNat &&& s.reg r.toNat)]
  | .andi d K => [(16 + d.toNat, s.reg (16 + d.toNat) &&& K)]
  | .asr d => [(d.toNat, s.reg d.toNat >>> 1 ||| s.reg d.toNat &&& 0x80)]
  | .bld d b => [(d.toNat, withFlag (flagMask b.toNat) (s.flag .t) (s.reg d.toNat))]
  | .bset _ | .bclr _ | .bst _ _ | .brbs _ _ | .brbc _ _ => []

/-- The flags that an instruction stores. -/
def flagWrites (s : State) : Instr → List (Flag × Bool)
  | .add d r =>
    additionFlags (s.reg d.toNat) (s.reg r.toNat) false (addResult (s.reg d.toNat) (s.reg r.toNat) false)
  | .adc d r =>
    additionFlags (s.reg d.toNat) (s.reg r.toNat) (s.flag .c) (addResult (s.reg d.toNat) (s.reg r.toNat) (s.flag .c))
  | .adiw d K =>
    let lo := 24 + 2 * d.toNat
    let x : OpWord := s.reg (lo + 1) ++ s.reg lo
    wordFlags x K (wordResult x K)
  | .and d r => logicFlags (s.reg d.toNat &&& s.reg r.toNat)
  | .andi d K => logicFlags (s.reg (16 + d.toNat) &&& K)
  | .asr d => shiftFlags (s.reg d.toNat) (s.reg d.toNat >>> 1 ||| s.reg d.toNat &&& 0x80)
  | .bset k => [(Flag.ofIndex k, true)]
  | .bclr k => [(Flag.ofIndex k, false)]
  | .bst d b => [(.t, (s.reg d.toNat).getLsbD b.toNat)]
  | .bld _ _ | .brbs _ _ | .brbc _ _ => []

/-- The state after a list of register writes. -/
def State.putRegs : List (Nat × Byte) → State → State
  | [], s => s
  | (n, v) :: rest, s => State.putRegs rest (s.putByte n v)

/-- The state after register writes and a group of flags; an empty group leaves SREG's cell alone. -/
def State.written (regs : List (Nat × Byte)) (flags : List (Flag × Bool)) (s : State) : State :=
  match flags with
  | [] => s.putRegs regs
  | _ :: _ => (s.putRegs regs).putByte s.cfg.sregAddr (withFlags flags s.sreg)

section
variable {s t u : State} {i : Instr}

theorem registerWrites_fst (s : State) (i : Instr) : (registerWrites s i).map Prod.fst = registersWritten i := by
  cases i <;> rfl

theorem flagWrites_fst (s : State) (i : Instr) : (flagWrites s i).map Prod.fst = flagsDefined i := by
  cases i <;> rfl

theorem registersWritten_lt {n : Nat} (h : n ∈ registersWritten i) : n < 32 := by
  cases i with
  | add d r | adc d r | and d r | asr d | bld d b => exact List.mem_singleton.mp h ▸ d.isLt
  | andi d K => exact List.mem_singleton.mp h ▸ upperRegNumber_lt d
  | adiw d K =>
    have hlo : 24 + 2 * d.toNat + 1 < 32 := pairLowNumber_lt d
    rcases List.mem_pair.mp h with rfl | rfl
    · omega
    · exact hlo
  | bset k | bclr k | bst d b | brbs k n | brbc k n => cases h

theorem registerWrites_ne_sregAddr (h : s.cfg.WellFormed) (i : Instr) :
    ∀ w ∈ registerWrites s i, w.1 ≠ s.cfg.sregAddr := by
  intro w hw
  have hmem : w.1 ∈ registersWritten i := registerWrites_fst s i ▸ List.mem_map_of_mem hw
  exact reg_ne_sregAddr h (registersWritten_lt hmem)

/-- The next state of every instruction that leaves the PC to the engine. -/
theorem exec_eq_written (h : s.cfg.WellFormed) (hi : ownsPc i = false) :
    exec i s = .next (s.written (registerWrites s i) (flagWrites s i)) := by
  cases i with
  | add d r => exact execAdd_eq h d r
  | adc d r => exact execAdc_eq h d r
  | adiw d K => exact execAdiw_eq h d K
  | and d r => exact execAnd_eq h d r
  | andi d K => exact execAndi_eq h d K
  | asr d => exact execAsr_eq h d
  | bset k => exact execBset_eq h k
  | bclr k => exact execBclr_eq h k
  | bld d b => exact execBld_eq h d b
  | bst d b => exact execBst_eq h d b
  | brbs k n | brbc k n => cases hi

/-- What a handler that answers next has done. -/
theorem exec_next_cases (h : s.cfg.WellFormed) (hx : exec i s = .next u) :
    (ownsPc i = false ∧ u = s.written (registerWrites s i) (flagWrites s i)) ∨
      (ownsPc i = true ∧ ∃ taken k, u = branchIf taken k s) := by
  cases i with
  | brbs k n =>
    rw [exec_brbs h] at hx
    cases hx
    exact .inr ⟨rfl, _, k, rfl⟩
  | brbc k n =>
    rw [exec_brbc h] at hx
    cases hx
    exact .inr ⟨rfl, _, k, rfl⟩
  | _ =>
    rw [exec_eq_written h rfl] at hx
    cases hx
    exact .inl ⟨rfl, rfl⟩

/-- In a well-formed configuration every handler answers next. -/
theorem exec_answers_next (h : s.cfg.WellFormed) (i : Instr) : ∃ u, exec i s = .next u := by
  cases i with
  | brbs k n => exact ⟨_, exec_brbs h k n⟩
  | brbc k n => exact ⟨_, exec_brbc h k n⟩
  | _ => exact ⟨_, exec_eq_written h rfl⟩

/-! The writes leave what single byte writes leave. -/

theorem putRegs_induction {P : State → Prop} (regs : List (Nat × Byte)) (h0 : P s)
    (hput : ∀ u n v, u.cfg = s.cfg → n ∈ regs.map Prod.fst → P u → P (u.putByte n v)) : P (s.putRegs regs) := by
  induction regs generalizing s with
  | nil => exact h0
  | cons w regs ih =>
    obtain ⟨n, v⟩ := w
    exact ih (hput s n v rfl (by simp) h0) fun u m x hcfg hm => hput u m x hcfg (by simp [hm])

@[simp] theorem putRegs_cfg (regs : List (Nat × Byte)) : (s.putRegs regs).cfg = s.cfg :=
  putRegs_induction (P := fun u => u.cfg = s.cfg) regs rfl fun _ _ _ _ _ h => h

/-- A property that every byte write to a listed register or to SREG keeps, the writes of an instruction keep. -/
theorem written_induction {P : State → Prop} (regs : List (Nat × Byte)) (flags : List (Flag × Bool)) (h0 : P s)
    (hput : ∀ u n v, u.cfg = s.cfg → n ∈ regs.map Prod.fst ∨ n = s.cfg.sregAddr → P u → P (u.putByte n v)) :
    P (s.written regs flags) := by
  have hregs : P (s.putRegs regs) := putRegs_induction regs h0 fun u n v hcfg hn => hput u n v hcfg (.inl hn)
  cases flags with
  | nil => exact hregs
  | cons _ _ => exact hput _ _ _ (putRegs_cfg regs) (.inr rfl) hregs

theorem written_frame (regs : List (Nat × Byte)) (flags : List (Flag × Bool)) :
    RestUnchanged s (s.written regs flags) ∧ (s.written regs flags).pc = s.pc ∧
      ∀ a, a ∉ regs.map Prod.fst → a ≠ s.cfg.sregAddr → (s.written regs flags).dmem.read a = s.dmem.read a := by
  refine written_induction
    (P := fun u => RestUnchanged s u ∧ u.pc = s.pc ∧
      ∀ a, a ∉ regs.map Prod.fst → a ≠ s.cfg.sregAddr → u.dmem.read a = s.dmem.read a)
    regs flags ⟨⟨rfl, rfl, rfl⟩, rfl, fun _ _ _ => rfl⟩ ?_
  rintro u n v - hn ⟨hrest, hpc, hread⟩
  refine ⟨hrest, hpc, fun a ha hs => ?_⟩
  have hne : a ≠ n := by
    rintro rfl
    exact hn.elim ha hs
  rw [State.putByte_dmem, Memory.read_write_other _ v hne, hread a ha hs]

theorem putRegs_sreg {regs : List (Nat × Byte)} (hregs : ∀ w ∈ regs, w.1 ≠ s.cfg.sregAddr) :
    (s.putRegs regs).sreg = s.sreg := by
  refine putRegs_induction (P := fun u => u.sreg = s.sreg) regs rfl fun u n v hcfg hn hu => ?_
  obtain ⟨w, hw, rfl⟩ := List.mem_map.mp hn
  rw [State.sreg_putByte_other v (hcfg ▸ hregs w hw), hu]

theorem written_flag_other {regs : List (Nat × Byte)} {flags : List (Flag × Bool)} {f : Flag}
    (hregs : ∀ w ∈ regs, w.1 ≠ s.cfg.sregAddr) (hf : f ∉ flags.map Prod.fst) :
    (s.written regs flags).flag f = s.flag f := by
  cases flags with
  | nil => rw [State.written, State.flag, putRegs_sreg hregs, State.flag]
  | cons x flags =>
    rw [State.written, ← putRegs_cfg (s := s) regs, State.flag_putByte_sreg, withFlags_other _ _ _ hf, State.flag]

/-- The frame of every instruction (R15, R58, R85, R139). -/
theorem exec_frame (h : s.cfg.WellFormed) (hx : exec i s = .next u) :
    RestUnchanged s u ∧ DataUnchangedBut (registersWritten i) (flagsDefined i) s u ∧
      (ownsPc i = false → u.pc = s.pc) := by
  obtain ⟨-, rfl⟩ | ⟨hi, taken, k, rfl⟩ := exec_next_cases h hx
  · obtain ⟨hrest, hpc, hread⟩ := written_frame (s := s) (registerWrites s i) (flagWrites s i)
    rw [registerWrites_fst] at hread
    refine ⟨hrest, ⟨hread, fun f hf => ?_⟩, fun _ => hpc⟩
    exact written_flag_other (registerWrites_ne_sregAddr h i) (flagWrites_fst s i ▸ hf)
  · refine ⟨branchIf_rest taken k s, ⟨fun a _ _ => ?_, fun f _ => branchIf_flag s taken k f⟩, ?_⟩
    · rw [branchIf_dmem]
    · simp [hi]

end

/-- Settles O26: the frame of what any instruction writes. -/
theorem execChangesOnlyWhatTheTableNames : Obligations.ExecChangesOnlyWhatTheTableNames :=
  fun _ _ _ h hx => exec_frame h hx

/-- Settles O27: a flag that changed is one that the table of R85 gives the instruction, and T and I stand there only
for the bit stores. -/
theorem onlyBitStoresChangeTAndI : Obligations.OnlyBitStoresChangeTAndI := by
  intro i s t h hx
  obtain ⟨-, ⟨-, hflags⟩, -⟩ := exec_frame h hx
  have hdefined : ∀ f, t.flag f ≠ s.flag f → f ∈ flagsDefined i := fun f hne => not_imp_comm.mp (hflags f) hne
  have hindexT : ∀ k, Flag.t ∈ [Flag.ofIndex k] → k = 6 := by decide
  have hindexI : ∀ k, Flag.i ∈ [Flag.ofIndex k] → k = 7 := by decide
  refine ⟨fun hne => ?_, fun hne => ?_⟩
  · have hmem := hdefined .t hne
    cases i with
    | bst d b => exact .inl ⟨d, b, rfl⟩
    | bset k => exact .inr (.inl (congrArg Instr.bset (hindexT k hmem)))
    | bclr k => exact .inr (.inr (congrArg Instr.bclr (hindexT k hmem)))
    | _ => simp [flagsDefined] at hmem
  · have hmem := hdefined .i hne
    cases i with
    | bset k => exact .inl (congrArg Instr.bset (hindexI k hmem))
    | bclr k => exact .inr (congrArg Instr.bclr (hindexI k hmem))
    | _ => simp [flagsDefined] at hmem

end Sys2Proof.Machine

/-! PROOFS. What every step keeps: the cells that are neither registers nor SREG, program memory and the parameters
along a run (R43), and the invariant of the state. -/

namespace Sys2Proof.Machine

section
variable {s t : State}

/-- One step of R43. -/
theorem step_keeps_other_cells (h : step s = .next t) :
    (∀ a, 32 ≤ a → a ≠ s.cfg.sregAddr → t.dmem.read a = s.dmem.read a) ∧ t.pmem = s.pmem ∧ t.cfg = s.cfg := by
  obtain ⟨hwf, -, ⟨f, -, rfl⟩ | ⟨w, i, u, -, -, hx, rfl⟩⟩ := step_next_cases h
  · exact ⟨fun _ _ _ => rfl, rfl, rfl⟩
  · obtain ⟨⟨hcfg, hpmem, -⟩, ⟨hread, -⟩, -⟩ := exec_frame hwf hx
    refine ⟨fun a ha hs => ?_, by rw [advancePc_pmem, hpmem], by rw [advancePc_cfg, hcfg]⟩
    have hnot : a ∉ registersWritten i := fun hmem => ha.not_gt (registersWritten_lt hmem)
    rw [advancePc_dmem, hread a hnot hs]

/-- The part of the invariant that speaks of data memory. -/
def DataBounded (s : State) : Prop := Memory.wf s.dmem ∧ ∀ cell ∈ s.dmem, cell.1 < s.cfg.dataSize

theorem putByte_dataBounded {a : Nat} (v : Byte) (ha : a < s.cfg.dataSize) (h : DataBounded s) :
    DataBounded (s.putByte a v) :=
  ⟨Memory.write_wf a v h.1, Memory.write_bounded v ha h.2⟩

theorem exec_keeps_dataBounded {i : Instr} (hwf : s.cfg.WellFormed) (hx : exec i s = .next t) (h : DataBounded s) :
    DataBounded t := by
  obtain ⟨-, rfl⟩ | ⟨-, taken, k, rfl⟩ := exec_next_cases hwf hx
  · refine written_induction _ _ h fun u n v hcfg hn hu => putByte_dataBounded v ?_ hu
    rw [hcfg]
    rcases hn with hn | rfl
    · exact reg_lt_dataSize hwf (registersWritten_lt (registerWrites_fst s i ▸ hn))
    · exact sregAddr_lt hwf
  · unfold DataBounded
    rwa [branchIf_dmem, branchIf_cfg]

/-- After an instruction the PC has PC_BITS bits, from whatever PC it ran (R19, R139). -/
theorem advancePc_exec_pc_lt {i : Instr} (hwf : s.cfg.WellFormed) (hx : exec i s = .next t) :
    (advancePc i t).pc < 2 ^ s.cfg.pcBits := by
  obtain ⟨hi, rfl⟩ | ⟨hi, taken, k, rfl⟩ := exec_next_cases hwf hx
  · obtain ⟨⟨hcfg, -, -⟩, -, -⟩ := written_frame (s := s) (registerWrites s i) (flagWrites s i)
    rw [advancePc, hi, ← hcfg]
    exact setPc_lt _ _
  · rw [advancePc, hi, if_pos rfl]
    cases taken with
    | false => exact setPc_lt _ _
    | true => exact setPc_lt _ _

end

/-- Settles O29, by induction on the number of steps. -/
theorem runKeepsOtherCellsAndProgram : Obligations.RunKeepsOtherCellsAndProgram := by
  intro k
  induction k with
  | zero =>
    intro s t h
    cases h
    exact ⟨fun _ _ _ => rfl, rfl, rfl⟩
  | succ k ih =>
    intro s t h
    obtain ⟨u, hstep, hrun⟩ := run_succ_next h
    obtain ⟨hread, hpmem, hcfg⟩ := step_keeps_other_cells hstep
    obtain ⟨hread', hpmem', hcfg'⟩ := ih u t hrun
    exact ⟨fun a ha hs => (hread' a ha (hcfg ▸ hs)).trans (hread a ha hs), hpmem'.trans hpmem, hcfg'.trans hcfg⟩

/-- Settles O41: a fault changes the engine alone, and an instruction keeps each part of the invariant. -/
theorem stepKeepsTheInvariant : Obligations.StepKeepsTheInvariant := by
  intro s t hs h
  obtain ⟨hwf, hdmem, hdbound, hpmem, hpbound, hpc⟩ := hs
  obtain ⟨-, -, ⟨f, -, rfl⟩ | ⟨w, i, u, -, -, hx, rfl⟩⟩ := step_next_cases h
  · exact ⟨hwf, hdmem, hdbound, hpmem, hpbound, hpc⟩
  · obtain ⟨hcfg, hpmemEq, -⟩ := exec_next_rest hx
    obtain ⟨hdmem', hdbound'⟩ := exec_keeps_dataBounded hwf hx ⟨hdmem, hdbound⟩
    have hpc' := advancePc_exec_pc_lt hwf hx
    simp only [State.wf, advancePc_cfg, advancePc_dmem, advancePc_pmem, hpmemEq]
    rw [hcfg] at hdbound' ⊢
    exact ⟨hwf, hdmem', hdbound', hpmem, hpbound, hpc'⟩

/-- Settles O42: the reference configuration is well formed, and an empty memory and PC 0 are inside every bound. -/
theorem resetHasTheInvariant : Obligations.ResetHasTheInvariant :=
  ⟨by decide, ⟨List.Pairwise.nil, nofun⟩, nofun, ⟨List.Pairwise.nil, nofun⟩, nofun, Nat.two_pow_pos _⟩

/-- Settles O44: the fields of the reset state. -/
theorem resetIsReadyWithoutFault : Obligations.ResetIsReadyWithoutFault := ⟨rfl, rfl⟩

/-- Settles O53: the launch memories hold the launch contents, in canonical form and inside their sizes. -/
theorem constructionIsTheReset : Obligations.ConstructionIsTheReset := by
  intro cfg dmemInit pmemInit
  refine ⟨fun hwf => ⟨_, if_pos hwf, rfl, rfl, rfl, rfl, fun a ha => Memory.read_ofFun dmemInit ha,
    fun a ha => Memory.read_ofFun pmemInit ha, ?_⟩, fun hwf => if_neg hwf⟩
  exact ⟨hwf, Memory.ofFun_wf _ _, Memory.ofFun_bounded _ _, Memory.ofFun_wf _ _, Memory.ofFun_bounded _ _,
    Nat.two_pow_pos _⟩

end Sys2Proof.Machine

/-! PROOFS. What a call of `executeOne` can do, said once (R135, R141, R142, R155), and what it never does. -/

namespace Sys2Proof.Machine

theorem decode_error_eq {w : OpWord} {e : DecodeError} (h : decode w = .error e) : e = .unknownOpcode w := by
  unfold decode at h
  split at h
  · cases h
  · cases h
    rfl

section
variable {s t : State} {f : Fault}

theorem fetch_error_cases (h : fetch s = .error f) :
    s.cfg.progWords ≤ s.pc ∧ f = .addressOutOfRange (2 * s.pc) := by
  by_cases hpc : s.pc < s.cfg.progWords
  · simp [fetch_ok hpc] at h
  · rw [fetch_error (not_lt.mp hpc)] at h
    cases h
    exact ⟨not_lt.mp hpc, rfl⟩

/-- The phases of a step in a well-formed configuration: a fault of the fetch or of the decode, or one instruction. -/
theorem phases_cases (h : s.cfg.WellFormed) :
    (∃ f, phases s = .fault f ∧ fetch s = .error f) ∨
      (∃ w, phases s = .fault (.unknownOpcode w) ∧ fetch s = .ok w ∧ decode w = .error (.unknownOpcode w)) ∨
      ∃ w i u, phases s = .next (advancePc i u) ∧ fetch s = .ok w ∧ decode w = .ok i ∧ exec i s = .next u := by
  rcases phases_fault_or_execute s with ⟨f, hp, hfetch | ⟨w, e, hfetch, hdecode, rfl⟩⟩ | ⟨w, i, hfetch, hdecode, hp⟩
  · exact .inl ⟨f, hp, hfetch⟩
  · obtain rfl := decode_error_eq hdecode
    exact .inr (.inl ⟨w, hp, hfetch, hdecode⟩)
  · obtain ⟨u, hx⟩ := exec_answers_next h i
    exact .inr (.inr ⟨w, i, u, by rw [hp, execute, hx], hfetch, hdecode, hx⟩)

/-- A fault of the phases depends on what is fetched alone. -/
theorem phases_fault_iff (h : s.cfg.WellFormed) :
    phases s = .fault f ↔
      fetch s = .error f ∨ ∃ w, fetch s = .ok w ∧ decode w = .error (.unknownOpcode w) ∧ f = .unknownOpcode w := by
  rcases phases_cases h with ⟨g, hp, hfetch⟩ | ⟨w, hp, hfetch, hdecode⟩ | ⟨w, i, u, hp, hfetch, hdecode, -⟩
  · simp [hp, hfetch]
  · simp [hp, hfetch, hdecode, eq_comm]
  · simp [hp, hfetch, hdecode]

theorem step_halted (h : s.cfg.WellFormed) (he : s.engine = .halted f) : step s = .fault f := by
  rw [step, if_pos h, he]

/-- Every result of a call: the recorded fault again in Halted, a fault that the phases raise in Ready, or one
instruction run. -/
theorem executeOne_cases {x : Except Fault Unit} (h : executeOne s = some (t, x)) :
    s.cfg.WellFormed ∧
      ((∃ f, s.engine = .halted f ∧ t = s ∧ x = .error f) ∨
        (s.engine = .ready ∧ ∃ f, phases s = .fault f ∧ t = enterHalted f s ∧ x = .error f) ∨
        (s.engine = .ready ∧ t.engine = .ready ∧ x = .ok ())) := by
  by_cases hwf : s.cfg.WellFormed
  swap
  · simp [executeOne, step, hwf] at h
  refine ⟨hwf, ?_⟩
  cases he : s.engine with
  | halted f =>
    simp only [executeOne, step_halted hwf he, Option.some.injEq, Prod.mk.injEq] at h
    exact .inl ⟨f, rfl, h.1.symm, h.2.symm⟩
  | ready =>
    refine .inr ?_
    have hfault {g : Fault} (hp : phases s = .fault g) : enterHalted g s = t ∧ .error g = x := by
      simpa [executeOne_of_fault hwf he hp] using h
    rcases phases_cases hwf with ⟨g, hp, -⟩ | ⟨w, hp, -, -⟩ | ⟨w, i, u, -, hfetch, hdecode, hx⟩
    · exact .inl ⟨rfl, g, hp, (hfault hp).1.symm, (hfault hp).2.symm⟩
    · exact .inl ⟨rfl, _, hp, (hfault hp).1.symm, (hfault hp).2.symm⟩
    · obtain ⟨-, -, hengine⟩ := exec_next_rest hx
      have hready : (advancePc i u).engine = .ready := by rw [advancePc_engine, hengine, he]
      simp only [executeOne, step_of_decoded hwf he hfetch hdecode hx, hready, Option.some.injEq, Prod.mk.injEq] at h
      obtain ⟨rfl, rfl⟩ := h
      exact .inr ⟨rfl, hready, rfl⟩

end

/-- Settles O37: a fault that is reported again changes nothing, and one that is taken changes the engine alone. -/
theorem failedStepChangesOnlyEngineAndFault : Obligations.FailedStepChangesOnlyEngineAndFault := by
  intro s t f h
  obtain ⟨-, ⟨g, he, rfl, hg⟩ | ⟨-, g, -, rfl, hg⟩ | ⟨-, -, hok⟩⟩ := executeOne_cases h
  · cases hg
    exact ⟨he, rfl, rfl, rfl, rfl⟩
  · cases hg
    exact ⟨rfl, rfl, rfl, rfl, rfl⟩
  · cases hok

/-- Settles O38, over the three kinds of result of a call. -/
theorem resultOfACallMatchesTheEngine : Obligations.ResultOfACallMatchesTheEngine := by
  intro s t x h
  obtain ⟨-, ⟨f, he, rfl, hx⟩ | ⟨-, f, -, rfl, hx⟩ | ⟨-, he, hx⟩⟩ := executeOne_cases h
  · exact .inr ⟨f, hx, he, by simp [State.faultRegister, he]⟩
  · exact .inr ⟨f, hx, rfl, rfl⟩
  · exact .inl ⟨hx, he, by simp [State.faultRegister, he]⟩

/-- Settles O30: a handler raises AddressOutOfRange alone, the fetch too, and the decode UnknownOpcode. -/
theorem noInstructionRaisesInvalidOperand : Obligations.NoInstructionRaisesInvalidOperand := by
  refine ⟨fun i s detail hx => ?_, fun s t detail he h => ?_⟩
  · rcases exec_cases i s with ⟨u, hu, -⟩ | ⟨a, ha⟩
    · simp [hx] at hu
    · simp [hx] at ha
  · obtain ⟨hwf, ⟨f, hhalted, -, -⟩ | ⟨-, f, hp, -, hf⟩ | ⟨-, -, hok⟩⟩ := executeOne_cases h
    · simp [he] at hhalted
    · cases hf
      rcases (phases_fault_iff hwf).mp hp with hfetch | ⟨w, -, -, hw⟩
      · cases (fetch_error_cases hfetch).2
      · cases hw
    · cases hok

/-- Settles O32: a fault of the phases is taken, and an instruction answers next. -/
theorem readyStepAlwaysAnswersNext : Obligations.ReadyStepAlwaysAnswersNext := by
  intro s hwf he
  rcases phases_cases hwf with ⟨f, hp, -⟩ | ⟨w, hp, -, -⟩ | ⟨w, i, u, -, hfetch, hdecode, hx⟩
  · exact ⟨_, step_of_fault hwf he hp⟩
  · exact ⟨_, step_of_fault hwf he hp⟩
  · exact ⟨_, step_of_decoded hwf he hfetch hdecode hx⟩

/-- Settles O33: of the faults of the phases only the fetch's is AddressOutOfRange. -/
theorem fetchFaultsExactlyBeyondProgramMemory : Obligations.FetchFaultsExactlyBeyondProgramMemory := by
  intro s hwf he
  have hbeyond (hpc : s.cfg.progWords ≤ s.pc) :
      executeOne s = some (enterHalted (.addressOutOfRange (2 * s.pc)) s, .error (.addressOutOfRange (2 * s.pc))) :=
    executeOne_of_fault hwf he ((phases_fault_iff hwf).mpr (.inl (fetch_error hpc)))
  refine ⟨⟨?_, fun hpc => ⟨_, _, hbeyond hpc⟩⟩, hbeyond, fetch_ok⟩
  rintro ⟨t, a, h⟩
  obtain ⟨-, ⟨f, hhalted, -, -⟩ | ⟨-, f, hp, -, hf⟩ | ⟨-, -, hok⟩⟩ := executeOne_cases h
  · simp [he] at hhalted
  · cases hf
    rcases (phases_fault_iff hwf).mp hp with hfetch | ⟨w, -, -, hw⟩
    · exact (fetch_error_cases hfetch).1
    · cases hw
  · cases hok

/-- Settles O35: Halted answers before any phase runs. -/
theorem haltedStepReturnsTheRecordedFault : Obligations.HaltedStepReturnsTheRecordedFault := by
  intro s f hwf he
  have hstep := step_halted hwf he
  exact ⟨by rw [executeOne, hstep], hstep⟩

/-- Settles O31: the phases up to the handler succeed, and the rest of the step is a match on its answer. -/
theorem stepRunsTheDecodedInstruction : Obligations.StepRunsTheDecodedInstruction := by
  intro s i hwf he hpc hdecode
  have hphases : phases s = execute i s := by
    rw [phases, fetch_ok hpc, wordOfBytes]
    simp only [hdecode]
  rw [step_ready hwf he, cycle, hphases, execute]
  cases exec i s <;> rfl

end Sys2Proof.Machine

/-! PROOFS. Noninterference of the I flag (R160): two states that agree but for I fetch the same word, write the same
registers and store the same flags, so they agree but for I after the step. -/

namespace Sys2Proof.Machine

section
variable {f : Flag} {s t : State}

theorem AgreeExceptFlag.reg (h : AgreeExceptFlag f s t) {n : Nat} (hn : n ≠ s.cfg.sregAddr) : t.reg n = s.reg n := by
  obtain ⟨-, -, -, -, hread, -⟩ := h
  exact hread n List.not_mem_nil hn

theorem AgreeExceptFlag.flag (h : AgreeExceptFlag f s t) {g : Flag} (hg : g ≠ f) : t.flag g = s.flag g := by
  obtain ⟨-, -, -, -, -, hflag⟩ := h
  exact hflag g (by simpa using hg)

theorem AgreeExceptFlag.fetch_eq (h : AgreeExceptFlag f s t) : fetch t = fetch s := by
  obtain ⟨hcfg, hpmem, -, hpc, -⟩ := h
  rw [fetch, fetch, progRead, progRead, hcfg, hpmem, hpc]

/-! Each of the three kinds of write keeps the agreement. -/

theorem AgreeExceptFlag.putByte (h : AgreeExceptFlag f s t) {n : Nat} (hn : n ≠ s.cfg.sregAddr) (v : Byte) :
    AgreeExceptFlag f (s.putByte n v) (t.putByte n v) := by
  have hflag {g : Flag} (hg : g ∉ [f]) : t.flag g = s.flag g := h.flag (by simpa using hg)
  obtain ⟨hcfg, hpmem, hengine, hpc, hread, -⟩ := h
  refine ⟨hcfg, hpmem, hengine, hpc, fun a ha hs => ?_, fun g hg => ?_⟩
  · rw [State.putByte_dmem, State.putByte_dmem, Memory.read_write, Memory.read_write, hread a ha hs]
  · rw [State.flag_putByte_other v hn, State.flag_putByte_other v (hcfg ▸ hn), hflag hg]

theorem AgreeExceptFlag.putSreg (h : AgreeExceptFlag f s t) {x y : Byte}
    (hxy : ∀ g, g ≠ f → y.getLsbD g.bit = x.getLsbD g.bit) :
    AgreeExceptFlag f (s.putByte s.cfg.sregAddr x) (t.putByte t.cfg.sregAddr y) := by
  obtain ⟨hcfg, hpmem, hengine, hpc, hread, -⟩ := h
  refine ⟨hcfg, hpmem, hengine, hpc, fun a ha hs => ?_, fun g hg => ?_⟩
  · rw [State.putByte_cfg] at hs
    rw [State.putByte_dmem, State.putByte_dmem, Memory.read_write_other _ x hs,
      Memory.read_write_other _ y (hcfg ▸ hs), hread a ha hs]
  · rw [State.flag_putByte_sreg, State.flag_putByte_sreg, hxy g (by simpa using hg)]

theorem AgreeExceptFlag.setPc (h : AgreeExceptFlag f s t) (a : Int) : AgreeExceptFlag f (s.setPc a) (t.setPc a) := by
  obtain ⟨hcfg, hpmem, hengine, -, hdata⟩ := h
  exact ⟨hcfg, hpmem, hengine, by rw [State.setPc_pc, State.setPc_pc, hcfg], hdata⟩

theorem AgreeExceptFlag.enterHalted (h : AgreeExceptFlag f s t) (g : Fault) :
    AgreeExceptFlag f (enterHalted g s) (enterHalted g t) := by
  obtain ⟨hcfg, hpmem, -, hpc, hdata⟩ := h
  exact ⟨hcfg, hpmem, rfl, hpc, hdata⟩

/-- Storing a group of flags keeps the agreement of two SREG bytes at a bit. -/
theorem withFlags_congr (l : List (Flag × Bool)) {x y : Byte} {g : Flag} (h : y.getLsbD g.bit = x.getLsbD g.bit) :
    (withFlags l y).getLsbD g.bit = (withFlags l x).getLsbD g.bit := by
  induction l generalizing x y with
  | nil => exact h
  | cons w l ih =>
    obtain ⟨k, b⟩ := w
    exact ih (by rw [withFlag_flag, withFlag_flag, h])

theorem AgreeExceptFlag.putRegs {regs : List (Nat × Byte)} (h : AgreeExceptFlag f s t)
    (hregs : ∀ w ∈ regs, w.1 ≠ s.cfg.sregAddr) : AgreeExceptFlag f (s.putRegs regs) (t.putRegs regs) := by
  induction regs generalizing s t with
  | nil => exact h
  | cons w regs ih => exact ih (h.putByte (hregs w (by simp)) w.2) fun x hx => hregs x (by simp [hx])

theorem AgreeExceptFlag.written {regs : List (Nat × Byte)} (h : AgreeExceptFlag f s t)
    (hregs : ∀ w ∈ regs, w.1 ≠ s.cfg.sregAddr) (flags : List (Flag × Bool)) :
    AgreeExceptFlag f (s.written regs flags) (t.written regs flags) := by
  cases flags with
  | nil => exact h.putRegs hregs
  | cons x flags =>
    rw [State.written, State.written, ← putRegs_cfg (s := s) regs, ← putRegs_cfg (s := t) regs]
    exact (h.putRegs hregs).putSreg fun g hg => withFlags_congr _ (h.flag hg)

theorem AgreeExceptFlag.branchIf (h : AgreeExceptFlag f s t) (taken : Bool) (k : BitVec 7) :
    AgreeExceptFlag f (branchIf taken k s) (branchIf taken k t) := by
  obtain ⟨-, -, -, hpc, -⟩ := id h
  rw [Machine.branchIf, Machine.branchIf, hpc]
  split
  · exact h.setPc _
  · exact h.setPc _

theorem AgreeExceptFlag.advancePc (h : AgreeExceptFlag f s t) (i : Instr) :
    AgreeExceptFlag f (advancePc i s) (advancePc i t) := by
  obtain ⟨-, -, -, hpc, -⟩ := id h
  unfold Machine.advancePc
  split
  · exact h
  · exact hpc ▸ h.setPc (s.pc + 1)

/-- No handler's writes depend on I. -/
theorem writes_congr (h : AgreeExceptFlag .i s t) (hwf : s.cfg.WellFormed) (i : Instr) :
    registerWrites t i = registerWrites s i ∧ flagWrites t i = flagWrites s i := by
  have hreg {n : Nat} (hn : n < 32) : t.reg n = s.reg n := h.reg (reg_ne_sregAddr hwf hn)
  have hc : t.flag .c = s.flag .c := h.flag (by decide)
  have ht : t.flag .t = s.flag .t := h.flag (by decide)
  cases i with
  | add d r | and d r => simp [registerWrites, flagWrites, hreg d.isLt, hreg r.isLt]
  | adc d r => simp [registerWrites, flagWrites, hreg d.isLt, hreg r.isLt, hc]
  | adiw d K =>
    have hlo : 24 + 2 * d.toNat + 1 < 32 := pairLowNumber_lt d
    simp [registerWrites, flagWrites, hreg hlo, hreg (Nat.lt_of_succ_lt hlo)]
  | andi d K =>
    have hd : 16 + d.toNat < 32 := upperRegNumber_lt d
    simp [registerWrites, flagWrites, hreg hd]
  | asr d | bst d b => simp [registerWrites, flagWrites, hreg d.isLt]
  | bld d b => simp [registerWrites, flagWrites, hreg d.isLt, ht]
  | bset k | bclr k | brbs k n | brbc k n => exact ⟨rfl, rfl⟩

end

/-- The branch on I is the one instruction whose effect depends on I. -/
theorem exec_agree {s t u : State} {i : Instr} (h : AgreeExceptFlag .i s t) (hwf : s.cfg.WellFormed)
    (hi : ∀ k, i ≠ .brbs k 7 ∧ i ≠ .brbc k 7) (hx : exec i s = .next u) :
    ∃ v, exec i t = .next v ∧ AgreeExceptFlag .i u v := by
  obtain ⟨hcfg, -⟩ := id h
  have hwf' : t.cfg.WellFormed := hcfg ▸ hwf
  have hindex : ∀ n, n ≠ 7 → Flag.ofIndex n ≠ .i := by decide
  have hbranch {n : BitVec 3} (hn : n ≠ 7) : t.sreg.getLsbD n.toNat = s.sreg.getLsbD n.toNat := by
    rw [← flag_ofIndex, ← flag_ofIndex, h.flag (hindex n hn)]
  cases i with
  | brbs k n =>
    have hn : n ≠ 7 := by
      rintro rfl
      exact (hi k).1 rfl
    rw [exec_brbs hwf] at hx
    cases hx
    exact ⟨_, exec_brbs hwf' k n, hbranch hn ▸ h.branchIf _ k⟩
  | brbc k n =>
    have hn : n ≠ 7 := by
      rintro rfl
      exact (hi k).2 rfl
    rw [exec_brbc hwf] at hx
    cases hx
    exact ⟨_, exec_brbc hwf' k n, hbranch hn ▸ h.branchIf _ k⟩
  | _ =>
    rw [exec_eq_written hwf rfl] at hx
    cases hx
    obtain ⟨hregs, hflags⟩ := writes_congr h hwf _
    refine ⟨_, exec_eq_written hwf' rfl, ?_⟩
    rw [hregs, hflags]
    exact h.written (registerWrites_ne_sregAddr hwf _) _

/-- Settles O28: the same fault is taken, or the same instruction runs. -/
theorem interruptFlagHasNoEffect : Obligations.InterruptFlagHasNoEffect := by
  intro s t s' h hstep hword
  obtain ⟨hcfg, -, hengine, -⟩ := id h
  obtain ⟨hwf, he, ⟨f, hp, rfl⟩ | ⟨w, i, u, hfetch, hdecode, hx, rfl⟩⟩ := step_next_cases hstep
  · have hp' : phases t = .fault f := by
      rw [phases_fault_iff (hcfg ▸ hwf), h.fetch_eq]
      exact (phases_fault_iff hwf).mp hp
    exact ⟨_, step_of_fault (hcfg ▸ hwf) (hengine.trans he) hp', h.enterHalted f⟩
  · have hi (k : BitVec 7) : i ≠ .brbs k 7 ∧ i ≠ .brbc k 7 := by
      obtain ⟨hs, hc⟩ := hword w k hfetch
      exact ⟨fun e => hs (e ▸ hdecode), fun e => hc (e ▸ hdecode)⟩
    obtain ⟨v, hv, huv⟩ := exec_agree h hwf hi hx
    exact ⟨_, step_of_decoded (hcfg ▸ hwf) (hengine.trans he) (h.fetch_eq.trans hfetch) hdecode hv, huv.advancePc i⟩

end Sys2Proof.Machine

/-! PROOFS. The flags C, V and H as numbers, as bit formulas and as leaving the signed range (R71 to R84): a bit at the
top of a residue says on which side of the half its value lies. -/

namespace Sys2Proof.Machine

/-- The bit at position `k` of a word says whether the word's residue at width `k + 1` is in the upper half. -/
theorem getLsbD_eq_decide {n : Nat} (x : BitVec n) (k : Nat) :
    x.getLsbD k = decide (2 ^ k ≤ x.toNat % 2 ^ (k + 1)) := by
  rw [BitVec.getLsbD, Nat.testBit_eq_decide_div_mod_eq, decide_eq_decide, Nat.mod_pow_succ]
  have hlow : x.toNat % 2 ^ k < 2 ^ k := Nat.mod_lt _ (Nat.two_pow_pos k)
  rcases Nat.mod_two_eq_zero_or_one (x.toNat / 2 ^ k) with h | h
  · simp [h, hlow]
  · simp [h]

/-- The sign bit of a byte, and the bit below its high nibble. -/
theorem getLsbD_seven (a : Byte) : a.getLsbD 7 = decide (128 ≤ a.toNat) := by
  rw [getLsbD_eq_decide, Nat.mod_eq_of_lt a.isLt]
  rfl

theorem getLsbD_three (a : Byte) : a.getLsbD 3 = decide (8 ≤ a.toNat % 16) := getLsbD_eq_decide a 3

theorem getLsbD_fifteen (x : OpWord) : x.getLsbD 15 = decide (32768 ≤ x.toNat) := by
  rw [getLsbD_eq_decide, Nat.mod_eq_of_lt x.isLt]
  rfl

theorem byte_toInt (a : Byte) : a.toInt = if a.toNat < 128 then (a.toNat : Int) else a.toNat - 256 := by
  rw [BitVec.toInt_eq_toNat_cond]
  congr 1
  exact propext (by omega)

/-- V of an addition says that two equal signs gave the other one; V of a subtraction, that two different signs gave the
second one. -/
theorem overflowAdd_eq_bits (a b r : Byte) :
    overflowAdd a b r =
      ((a.getLsbD 7 && b.getLsbD 7 && !r.getLsbD 7) || (!a.getLsbD 7 && !b.getLsbD 7 && r.getLsbD 7)) := by
  have hbits : ∀ a b r : Bool, (a == b && r != a) = ((a && b && !r) || (!a && !b && r)) := by decide
  exact hbits _ _ _

theorem overflowSub_eq_bits (a b r : Byte) :
    overflowSub a b r =
      ((a.getLsbD 7 && !b.getLsbD 7 && !r.getLsbD 7) || (!a.getLsbD 7 && b.getLsbD 7 && r.getLsbD 7)) := by
  have hbits : ∀ a b r : Bool, (a != b && r != a) = ((a && !b && !r) || (!a && b && r)) := by decide
  exact hbits _ _ _

section
variable (a b : Byte) (cin : Bool)

/-! An addition, whose result is the residue of the sum. -/

theorem carryAdd_eq_decide : carryAdd a b cin = decide (a.toNat + b.toNat + cin.toNat > 255) := rfl

theorem carryAdd_eq_bits :
    let r := addResult a b cin
    carryAdd a b cin =
      ((a.getLsbD 7 && b.getLsbD 7) || (b.getLsbD 7 && !r.getLsbD 7) || (!r.getLsbD 7 && a.getLsbD 7)) := by
  intro r
  have hr : r.toNat = (a.toNat + b.toNat + cin.toNat) % 256 := addResult_toNat a b cin
  have hc := cin.toNat_le
  have ha := a.isLt
  have hb := b.isLt
  rw [carryAdd_eq_decide, Bool.eq_iff_iff]
  simp only [gt_iff_lt, getLsbD_seven, Bool.or_eq_true, Bool.and_eq_true, Bool.not_eq_true',
    decide_eq_true_eq, decide_eq_false_iff_not]
  omega

theorem halfCarryAdd_eq_bits :
    let r := addResult a b cin
    halfCarryAdd a b cin =
      ((a.getLsbD 3 && b.getLsbD 3) || (b.getLsbD 3 && !r.getLsbD 3) || (!r.getLsbD 3 && a.getLsbD 3)) := by
  intro r
  have hr : r.toNat = (a.toNat + b.toNat + cin.toNat) % 256 := addResult_toNat a b cin
  have hc := cin.toNat_le
  rw [Bool.eq_iff_iff, halfCarryAdd_eq_decide]
  simp only [gt_iff_lt, getLsbD_three, Bool.or_eq_true, Bool.and_eq_true, Bool.not_eq_true', decide_eq_true_eq,
    decide_eq_false_iff_not]
  omega

theorem overflowAdd_eq_range :
    let sum : Int := a.toInt + b.toInt + cin.toNat
    overflowAdd a b (addResult a b cin) = decide (sum < -128 ∨ 127 < sum) := by
  intro sum
  have hr := addResult_toNat a b cin
  have hc := cin.toNat_le
  have ha := a.isLt
  have hb := b.isLt
  rw [overflowAdd_eq_bits, Bool.eq_iff_iff]
  simp only [sum, byte_toInt, getLsbD_seven, Bool.or_eq_true, Bool.and_eq_true, Bool.not_eq_true', decide_eq_true_eq,
    decide_eq_false_iff_not]
  omega

/-! A subtraction, whose result is the residue of the difference. -/

theorem subResult_toNat :
    ((subResult a b cin).toNat : Int) = ((a.toNat : Int) - b.toNat - cin.toNat) % 256 := by
  rw [subResult, subFull, BitVec.toNat_ofInt]
  omega

theorem halfCarrySub_eq_decide :
    halfCarrySub a b cin = decide (((a.toNat % 16 : Nat) : Int) - (b.toNat % 16 : Nat) - cin.toNat < 0) := by
  rw [halfCarrySub, and_lowNibble_toNat, and_lowNibble_toNat]

theorem carrySub_eq_decide : carrySub a b cin = decide ((a.toNat : Int) - b.toNat - cin.toNat < 0) := rfl

theorem carrySub_eq_bits :
    let r := subResult a b cin
    carrySub a b cin =
      ((!a.getLsbD 7 && b.getLsbD 7) || (b.getLsbD 7 && r.getLsbD 7) || (r.getLsbD 7 && !a.getLsbD 7)) := by
  intro r
  have hr : (r.toNat : Int) = ((a.toNat : Int) - b.toNat - cin.toNat) % 256 := subResult_toNat a b cin
  have hc := cin.toNat_le
  have ha := a.isLt
  have hb := b.isLt
  rw [carrySub_eq_decide, Bool.eq_iff_iff]
  simp only [getLsbD_seven, Bool.or_eq_true, Bool.and_eq_true, Bool.not_eq_true', decide_eq_true_eq,
    decide_eq_false_iff_not]
  omega

theorem halfCarrySub_eq_bits :
    let r := subResult a b cin
    halfCarrySub a b cin =
      ((!a.getLsbD 3 && b.getLsbD 3) || (b.getLsbD 3 && r.getLsbD 3) || (r.getLsbD 3 && !a.getLsbD 3)) := by
  intro r
  have hr : (r.toNat : Int) = ((a.toNat : Int) - b.toNat - cin.toNat) % 256 := subResult_toNat a b cin
  have hc := cin.toNat_le
  rw [Bool.eq_iff_iff, halfCarrySub_eq_decide]
  simp only [getLsbD_three, Bool.or_eq_true, Bool.and_eq_true, Bool.not_eq_true', decide_eq_true_eq,
    decide_eq_false_iff_not]
  omega

theorem overflowSub_eq_range :
    let diff : Int := a.toInt - b.toInt - cin.toNat
    overflowSub a b (subResult a b cin) = decide (diff < -128 ∨ 127 < diff) := by
  intro diff
  have hr := subResult_toNat a b cin
  have hc := cin.toNat_le
  have ha := a.isLt
  have hb := b.isLt
  rw [overflowSub_eq_bits, Bool.eq_iff_iff]
  simp only [diff, byte_toInt, getLsbD_seven, Bool.or_eq_true, Bool.and_eq_true, Bool.not_eq_true', decide_eq_true_eq,
    decide_eq_false_iff_not]
  omega

end

/-- Settles O9: each formula compares the sum, at width 8 or 4, with its residue. -/
theorem additionFlagFormulas : Obligations.AdditionFlagFormulas := fun a b cin =>
  ⟨carryAdd_eq_decide a b cin, carryAdd_eq_bits a b cin, rfl, overflowAdd_eq_bits a b _, overflowAdd_eq_range a b cin,
    halfCarryAdd_eq_decide a b cin, halfCarryAdd_eq_bits a b cin⟩

/-- Settles O10: each formula compares the difference, at width 8 or 4, with its residue. -/
theorem subtractionFlagFormulas : Obligations.SubtractionFlagFormulas := fun a b cin =>
  ⟨carrySub_eq_decide a b cin, carrySub_eq_bits a b cin, rfl, overflowSub_eq_bits a b _, overflowSub_eq_range a b cin,
    halfCarrySub_eq_decide a b cin, halfCarrySub_eq_bits a b cin⟩

/-! The word addition of ADIW. -/

section
variable (x : OpWord) (K : BitVec 6)

theorem wordResult_toNat : (wordResult x K).toNat = (x.toNat + K.toNat) % 65536 := by
  simp [wordResult, wordFull]

theorem overflowWord_eq_bits (r : OpWord) : overflowWord x r = (!x.getLsbD 15 && r.getLsbD 15) := by
  have hbits : ∀ x r : Bool, (x == false && r == true) = (!x && r) := by decide
  exact hbits _ _

theorem carryWord_eq_decide : carryWord x K = decide (x.toNat + K.toNat > 65535) := rfl

theorem carryWord_eq_bits : carryWord x K = (!(wordResult x K).getLsbD 15 && x.getLsbD 15) := by
  have hr := wordResult_toNat x K
  have hx := x.isLt
  have hK := K.isLt
  rw [carryWord_eq_decide, Bool.eq_iff_iff]
  simp only [gt_iff_lt, getLsbD_fifteen, Bool.and_eq_true, Bool.not_eq_true', decide_eq_true_eq,
    decide_eq_false_iff_not]
  omega

theorem overflowWord_eq_range :
    let sum : Int := x.toInt + K.toNat
    overflowWord x (wordResult x K) = decide (sum < -32768 ∨ 32767 < sum) := by
  intro sum
  have hr := wordResult_toNat x K
  have hx := x.isLt
  have hK := K.isLt
  rw [overflowWord_eq_bits, Bool.eq_iff_iff]
  simp only [sum, BitVec.toInt_eq_toNat_cond, getLsbD_fifteen, Bool.and_eq_true, Bool.not_eq_true', decide_eq_true_eq,
    decide_eq_false_iff_not]
  omega

end

/-- Settles O11: K is below 64, so only a pair whose bit 15 is 1 can carry, and only one whose bit 15 is 0 can
overflow. -/
theorem wordAdditionFlagFormulas : Obligations.WordAdditionFlagFormulas := fun x K =>
  ⟨carryWord_eq_bits x K, overflowWord_eq_bits x _, overflowWord_eq_range x K⟩

end Sys2Proof.Machine

/-! PROOFS. ASR, BSET and ADIW (R110, R115, R92): result, flags and frame. -/

namespace Sys2Proof.Machine

section
variable {s u : State} {i : Instr}

/-- The frame of an instruction that leaves the PC to the engine. -/
theorem exec_unchangedBut (h : s.cfg.WellFormed) (hi : ownsPc i = false) (hx : exec i s = .next u) :
    UnchangedBut (registersWritten i) (flagsDefined i) s u := by
  obtain ⟨hrest, hdata, hpc⟩ := exec_frame h hx
  exact ⟨hrest, hpc hi, hdata⟩

end

/-! ASR. -/

/-- The result of R110 is the arithmetic shift: a check of the 256 bytes. -/
theorem asr_eq_sshiftRight (a : Byte) : a >>> 1 ||| a &&& 0x80 = a.sshiftRight 1 := by
  revert a
  decide

/-- The state after ASR: the shifted byte in `R[d]` and the five flags of a shift right (R81, R82). -/
def State.afterShift (s : State) (d : Nat) : State :=
  (s.putByte d ((s.reg d).sshiftRight 1)).putByte s.cfg.sregAddr
    (withFlags (shiftFlags (s.reg d) ((s.reg d).sshiftRight 1)) s.sreg)

theorem exec_asr {s : State} (h : s.cfg.WellFormed) (d : BitVec 5) :
    exec (.asr d) s = .next (s.afterShift d.toNat) := by
  rw [State.afterShift, ← asr_eq_sshiftRight]
  exact execAsr_eq h d

theorem afterShift_reg {s : State} (h : s.cfg.WellFormed) {d : Nat} (hd : d < 32) :
    (s.afterShift d).reg d = (s.reg d).sshiftRight 1 :=
  commit_reg h hd _ _

theorem afterShift_flag (s : State) (d : Nat) {f : Flag} {b : Bool}
    (hf : (f, b) ∈ shiftFlags (s.reg d) ((s.reg d).sshiftRight 1)) : (s.afterShift d).flag f = b :=
  commit_flag_mem s d _ (shiftFlags_nodup _ _) hf

theorem sshiftRight_one_getLsbD (a : Byte) {j : Nat} (hj : j < 7) :
    (a.sshiftRight 1).getLsbD j = a.getLsbD (j + 1) := by
  rw [BitVec.getLsbD_sshiftRight, if_pos (by omega), Nat.add_comm]
  simp [show ¬ 8 ≤ j by omega]

theorem sshiftRight_one_getLsbD_seven (a : Byte) : (a.sshiftRight 1).getLsbD 7 = a.getLsbD 7 := by
  rw [BitVec.getLsbD_sshiftRight]
  exact BitVec.msb_eq_getLsbD_last a

theorem sshiftRight_one_toInt (a : Byte) : (a.sshiftRight 1).toInt = a.toInt / 2 := by
  rw [BitVec.toInt_sshiftRight, Int.shiftRight_eq_div_pow]
  rfl

/-- Settles O17: the arithmetic shift, whose V is N xor C, so that S is C. -/
theorem asrRunsAsSpecified : Obligations.AsrRunsAsSpecified := by
  intro s d h a
  have hx := exec_asr h d
  have hreg : (s.afterShift d.toNat).reg d.toNat = a.sshiftRight 1 := afterShift_reg h d.isLt
  have hflag {f : Flag} {b : Bool} : (f, b) ∈ shiftFlags a (a.sshiftRight 1) → (s.afterShift d.toNat).flag f = b :=
    afterShift_flag s d.toNat
  generalize s.afterShift d.toNat = t at hx hreg hflag
  have hn : t.flag .n = a.getLsbD 7 :=
    (hflag (by simp [shiftFlags, negativeFlag])).trans (sshiftRight_one_getLsbD_seven a)
  have hc : t.flag .c = a.getLsbD 0 := hflag (by simp [shiftFlags, carryShiftRight])
  have hv : t.flag .v = (t.flag .n ^^ t.flag .c) := by
    rw [hn, hc, ← sshiftRight_one_getLsbD_seven]
    exact hflag (by simp [shiftFlags, overflowShift, negativeFlag, carryShiftRight])
  have hs : t.flag .s = (t.flag .n ^^ t.flag .v) := by
    rw [hv, hn, hc, ← sshiftRight_one_getLsbD_seven]
    exact hflag (by simp [shiftFlags, signFlag, overflowShift, negativeFlag, carryShiftRight])
  refine ⟨decode_encode_asr d, t, hx, ?_, ?_, ?_, hc, ?_, hn, hv, hs, ?_, exec_unchangedBut h rfl hx⟩
  · exact fun j hj => hreg ▸ sshiftRight_one_getLsbD a hj
  · rw [hreg, sshiftRight_one_getLsbD_seven]
  · rw [hreg, sshiftRight_one_toInt]
  · rw [hreg, ← beq_eq_decide]
    exact hflag (by simp [shiftFlags, zeroFlag])
  · rw [hs, hv, ← Bool.xor_assoc, Bool.xor_self, Bool.false_xor]

/-! BSET. -/

theorem exec_bset {s : State} (h : s.cfg.WellFormed) (k : BitVec 3) :
    exec (.bset k) s = .next (s.putByte s.cfg.sregAddr (withFlag (Flag.ofIndex k).mask true s.sreg)) :=
  execBset_eq h k

/-- Settles O18: BSET writes true to the one flag that `k` names, and the second write of it finds it written. -/
theorem bsetRunsAsSpecified : Obligations.BsetRunsAsSpecified := by
  intro s k h
  have hsreg := State.sreg_putByte_sreg (s := s) (withFlag (Flag.ofIndex k).mask true s.sreg)
  refine ⟨decode_encode_bset k, _, exec_bset h k, ?_, ?_, setFlag_frame s _ true,
    _, exec_bset (s := s.putByte ..) h k, ?_⟩
  · rw [hsreg, ← flagMask_index]
    rfl
  · rw [hsreg, withFlag_index_same]
  · rw [State.sreg_putByte_sreg, hsreg, withFlag_idem]

/-! ADIW: a register pair as a word, the high byte in the register above (R34). -/

theorem wordOfBytes_low_high (w : OpWord) : wordOfBytes (lowByte w) (highByte w) = w :=
  BitVec.extractLsb'_append_extractLsb'

theorem wordOfBytes_getLsbD_fifteen (lo hi : Byte) : (wordOfBytes lo hi).getLsbD 15 = hi.getLsbD 7 := by
  rw [wordOfBytes, BitVec.getLsbD_append]
  rfl

theorem zeroWord_eq_decide (r : OpWord) : zeroWord r = decide (r.toNat = 0) := by
  rw [zeroWord, beq_eq_decide]
  exact decide_eq_decide.mpr BitVec.toNat_inj.symm

/-- The word in the register pair whose low register is `lo`. -/
def State.pair (s : State) (lo : Nat) : OpWord := wordOfBytes (s.reg lo) (s.reg (lo + 1))

/-- The state after a word is stored in a register pair with the five flags of the word addition. -/
def State.afterWordAdd (s : State) (lo : Nat) (K : BitVec 6) : State :=
  ((s.putByte lo (lowByte (wordResult (s.pair lo) K))).putByte (lo + 1) (highByte (wordResult (s.pair lo) K))).putByte
    s.cfg.sregAddr (withFlags (wordFlags (s.pair lo) K (wordResult (s.pair lo) K)) s.sreg)

theorem exec_adiw {s : State} (h : s.cfg.WellFormed) (d : BitVec 2) (K : BitVec 6) :
    exec (.adiw d K) s = .next (s.afterWordAdd (24 + 2 * d.toNat) K) :=
  execAdiw_eq h d K

section
variable {s : State} {lo : Nat} (K : BitVec 6)

theorem afterWordAdd_pair (h : s.cfg.WellFormed) (hlo : lo + 1 < 32) :
    (s.afterWordAdd lo K).pair lo = wordResult (s.pair lo) K := by
  have hhigh : (s.afterWordAdd lo K).reg (lo + 1) = highByte (wordResult (s.pair lo) K) :=
    commit_reg (s := s.putByte lo _) h hlo _ _
  have hlow : (s.afterWordAdd lo K).reg lo = lowByte (wordResult (s.pair lo) K) := by
    rw [State.afterWordAdd, State.reg_putByte_other _ (reg_ne_sregAddr h (Nat.lt_of_succ_lt hlo)),
      State.reg_putByte_other _ (Nat.succ_ne_self lo).symm, State.reg_putByte_same]
  rw [State.pair, hlow, hhigh, wordOfBytes_low_high]

theorem afterWordAdd_flag {f : Flag} {b : Bool}
    (hf : (f, b) ∈ wordFlags (s.pair lo) K (wordResult (s.pair lo) K)) : (s.afterWordAdd lo K).flag f = b := by
  refine (State.flag_putByte_sreg ((s.putByte lo _).putByte (lo + 1) _) _ f).trans ?_
  exact withFlags_mem _ _ _ _ (wordFlags_nodup ..) hf

end

/-- Settles O14: the word addition on the register pair. -/
theorem adiwRunsAsSpecified : Obligations.AdiwRunsAsSpecified := by
  intro s d K h lo x
  have hx : exec (.adiw d K) s = .next (s.afterWordAdd lo K) := exec_adiw h d K
  have hpair : (s.afterWordAdd lo K).pair lo = wordResult (s.pair lo) K := afterWordAdd_pair K h (pairLowNumber_lt d)
  have hflag {f : Flag} {b : Bool} :
      (f, b) ∈ wordFlags (s.pair lo) K (wordResult (s.pair lo) K) → (s.afterWordAdd lo K).flag f = b :=
    afterWordAdd_flag K
  generalize s.afterWordAdd lo K = t at hx hpair hflag
  have hvalue (u : State) : (u.reg (lo + 1)).toNat * 256 + (u.reg lo).toNat = (u.pair lo).toNat := by
    rw [State.pair, wordOfBytes_toNat, Nat.add_comm]
  have hsign (u : State) : (u.pair lo).getLsbD 15 = (u.reg (lo + 1)).getLsbD 7 := wordOfBytes_getLsbD_fifteen _ _
  have hsum : (t.pair lo).toNat = (x + K.toNat) % 65536 := by rw [hpair, wordResult_toNat, ← hvalue]
  have hn : t.flag .n = (t.reg (lo + 1)).getLsbD 7 := by
    rw [← hsign, hpair]
    exact hflag (by simp [wordFlags, negativeWord])
  have hv : t.flag .v = (!(s.reg (lo + 1)).getLsbD 7 && (t.reg (lo + 1)).getLsbD 7) := by
    rw [← hsign, ← hsign, ← overflowWord_eq_bits, hpair]
    exact hflag (by simp [wordFlags])
  refine ⟨decode_encode_adiw d K, t, hx, (hvalue t).trans hsum, ?_, ?_, hn, hv, ?_, exec_unchangedBut h rfl hx⟩
  · rw [show x = _ from hvalue s, ← carryWord_eq_decide]
    exact hflag (by simp [wordFlags])
  · rw [← hsum, ← zeroWord_eq_decide, hpair]
    exact hflag (by simp [wordFlags])
  · rw [hn, hv, ← hsign, ← hsign, ← overflowWord_eq_bits, hpair]
    exact hflag (by simp [wordFlags, signFlag, negativeWord])

end Sys2Proof.Machine

/-! PROOFS. The pseudo-instructions of R64, as instances of the instructions they expand to. -/

namespace Sys2Proof.Machine

/-- A byte that is twice another one with a carry in below is that byte rotated left through the carry. -/
theorem getLsbD_of_toNat_double {a r : Byte} {cin : Bool} (h : r.toNat = (a.toNat + a.toNat + cin.toNat) % 256) :
    r.getLsbD 0 = cin ∧ ∀ j < 7, r.getLsbD (j + 1) = a.getLsbD j := by
  have hc := cin.toNat_le
  refine ⟨?_, fun j hj => ?_⟩
  · rw [getLsbD_eq_decide, h]
    cases cin with
    | false => exact decide_eq_false (by simp; omega)
    | true => exact decide_eq_true (by simp; omega)
  · have hhalf : (a.toNat + a.toNat + cin.toNat) / 2 = a.toNat := by omega
    rw [← BitVec.testBit_toNat, h, show 256 = 2 ^ 8 from rfl, Nat.testBit_mod_two_pow, Nat.testBit_succ, hhalf,
      BitVec.testBit_toNat]
    simp [show j + 1 < 8 by omega]

theorem ones_sub_eq_not (K : Byte) : 0xFF - K = ~~~K := BitVec.allOnes_sub_eq_not K

section
variable {s : State} (h : s.cfg.WellFormed)
include h

theorem exec_lsl (d : BitVec 5) :
    ∃ t, exec (.add d d) s = .next t ∧ (t.reg d.toNat).toNat = 2 * (s.reg d.toNat).toNat % 256 ∧
      t.flag .c = (s.reg d.toNat).getLsbD 7 ∧ t.flag .h = (s.reg d.toNat).getLsbD 3 := by
  obtain ⟨hsum, hh, hc, -⟩ := afterAdd_meets_rule h d.isLt d.toNat false
  refine ⟨_, exec_add h d d, ?_, ?_, ?_⟩
  · rw [hsum, Bool.toNat_false, Nat.add_zero, Nat.two_mul]
  · rw [hc, getLsbD_seven, decide_eq_decide, Bool.toNat_false]
    omega
  · rw [hh, getLsbD_three, decide_eq_decide, Bool.toNat_false]
    omega

theorem exec_rol (d : BitVec 5) :
    ∃ t, exec (.adc d d) s = .next t ∧ (t.reg d.toNat).getLsbD 0 = s.flag .c ∧
      (∀ j < 7, (t.reg d.toNat).getLsbD (j + 1) = (s.reg d.toNat).getLsbD j) ∧
      t.flag .c = (s.reg d.toNat).getLsbD 7 := by
  obtain ⟨hsum, -, hc, -⟩ := afterAdd_meets_rule h d.isLt d.toNat (s.flag .c)
  obtain ⟨hlow, hhigh⟩ := getLsbD_of_toNat_double hsum
  refine ⟨_, exec_adc h d d, hlow, hhigh, ?_⟩
  have hcin := (s.flag .c).toNat_le
  rw [hc, getLsbD_seven, decide_eq_decide]
  omega

theorem exec_tst (d : BitVec 5) :
    ∃ t, exec (.and d d) s = .next t ∧ t.reg d.toNat = s.reg d.toNat ∧
      t.flag .z = decide (s.reg d.toNat = 0) ∧ t.flag .n = (s.reg d.toNat).getLsbD 7 := by
  have hx : exec (.and d d) s = .next (s.afterLogic d.toNat (s.reg d.toNat)) := by rw [exec_and h, BitVec.and_self]
  obtain ⟨hreg, hz, hn, -⟩ := afterLogic_meets_rule (s.reg d.toNat) h d.isLt
  rw [hreg] at hz hn
  exact ⟨_, hx, hreg, hz, hn⟩

theorem exec_cbr (d : BitVec 4) (K : BitVec 8) :
    ∃ t, exec (.andi d (0xFF - K)) s = .next t ∧
      ∀ j < 8, (t.reg (16 + d.toNat)).getLsbD j = ((s.reg (16 + d.toNat)).getLsbD j && !K.getLsbD j) := by
  have hx := exec_andi h d (0xFF - K)
  obtain ⟨hreg, -⟩ := afterLogic_meets_rule (s.reg (16 + d.toNat) &&& (0xFF - K)) h (upperRegNumber_lt d)
  refine ⟨_, hx, fun j hj => ?_⟩
  have hbits : (s.reg (16 + d.toNat) &&& (0xFF - K)).getLsbD j =
      ((s.reg (16 + d.toNat)).getLsbD j && !K.getLsbD j) := by
    rw [ones_sub_eq_not, BitVec.getLsbD_and, BitVec.getLsbD_not, decide_eq_true hj, Bool.true_and]
  exact (congrArg (BitVec.getLsbD · j) hreg).trans hbits

end

/-- Settles O25: one lemma for each pseudo-instruction. -/
theorem pseudoInstructionsDoWhatTheySay : Obligations.PseudoInstructionsDoWhatTheySay :=
  fun _ h => ⟨exec_lsl h, exec_rol h, exec_tst h, exec_cbr h⟩

end Sys2Proof.Machine

/-! PROOFS. The loader (R144, R41): the two bytes it writes, and which fetch sees them. -/

namespace Sys2Proof.Machine

section
variable {s t : State} {offset : Nat} {word : OpWord}

theorem loadInstructionWord_ok (h : offset < s.cfg.progWords) :
    loadInstructionWord offset word s = .ok (s.withProgWord offset word) :=
  if_pos h

theorem loadInstructionWord_error (h : s.cfg.progWords ≤ offset) :
    loadInstructionWord offset word s = .error (.addressOutOfRange (2 * offset)) :=
  if_neg h.not_gt

theorem loadInstructionWord_cases (h : loadInstructionWord offset word s = .ok t) :
    offset < s.cfg.progWords ∧ t = s.withProgWord offset word := by
  by_cases hoff : offset < s.cfg.progWords
  · rw [loadInstructionWord_ok hoff] at h
    cases h
    exact ⟨hoff, rfl⟩
  · rw [loadInstructionWord_error (not_lt.mp hoff)] at h
    cases h

theorem withProgWord_read_low (s : State) (offset : Nat) (word : OpWord) :
    (s.withProgWord offset word).pmem.read (2 * offset) = lowByte word := by
  rw [State.withProgWord_pmem, Memory.read_write_other _ _ (Nat.succ_ne_self _).symm, Memory.read_write_same]

theorem withProgWord_read_high (s : State) (offset : Nat) (word : OpWord) :
    (s.withProgWord offset word).pmem.read (2 * offset + 1) = highByte word := by
  rw [State.withProgWord_pmem, Memory.read_write_same]

theorem withProgWord_read_other (s : State) (word : OpWord) {a : Nat} (hlow : a ≠ 2 * offset)
    (hhigh : a ≠ 2 * offset + 1) : (s.withProgWord offset word).pmem.read a = s.pmem.read a := by
  rw [State.withProgWord_pmem, Memory.read_write_other _ _ hhigh, Memory.read_write_other _ _ hlow]

theorem progRead_withProgWord_same (h : offset < s.cfg.progWords) :
    progRead offset (s.withProgWord offset word) = .ok word := by
  rw [progRead_ok (s := s.withProgWord offset word) h, withProgWord_read_low, withProgWord_read_high,
    wordOfBytes_low_high]

theorem progRead_withProgWord_other {w : Nat} (h : w ≠ offset) :
    progRead w (s.withProgWord offset word) = progRead w s := by
  rw [progRead, progRead, State.withProgWord_cfg, withProgWord_read_other s word (by omega) (by omega),
    withProgWord_read_other s word (by omega) (by omega)]

end

/-- Settles O49: the load on either side of PROG_WORDS, and the one step of a bulk load that it decides. -/
theorem loaderWritesOneWord : Obligations.LoaderWritesOneWord := by
  intro s offset word
  refine ⟨rfl, fun h => ⟨s.withProgWord offset word, loadInstructionWord_ok h, withProgWord_read_low s offset word,
    withProgWord_read_high s offset word, fun a hlow hhigh => withProgWord_read_other s word hlow hhigh,
    rfl, rfl, rfl, rfl, fun rest => ?_⟩, fun h => ⟨loadInstructionWord_error h, fun rest => ?_⟩⟩
  · rw [bulkLoad, loadInstructionWord_ok h]
  · rw [bulkLoad, loadInstructionWord_error h]

/-- Settles O50: a fetch is the program read at the PC, which the load leaves alone. -/
theorem loadedWordIsFetched : Obligations.LoadedWordIsFetched := by
  intro s t offset word h
  obtain ⟨hoff, rfl⟩ := loadInstructionWord_cases h
  refine ⟨?_, fun hpc => progRead_withProgWord_other hpc⟩
  rintro rfl
  exact progRead_withProgWord_same hoff

/-- A bulk load does not touch the engine, however far it comes. -/
theorem bulkLoad_engine (l : List (Nat × OpWord)) (s : State) : (bulkLoad l s).1.engine = s.engine := by
  induction l generalizing s with
  | nil => rfl
  | cons x l ih =>
    obtain ⟨offset, word⟩ := x
    by_cases h : offset < s.cfg.progWords
    · rw [bulkLoad, loadInstructionWord_ok h]
      exact ih (s.withProgWord offset word)
    · rw [bulkLoad, loadInstructionWord_error (not_lt.mp h)]

theorem writeRegister_engine {index : Nat} {v : Byte} {s t : State} (h : writeRegister index v s = .ok t) :
    t.engine = s.engine := by
  unfold writeRegister at h
  split at h
  · obtain ⟨-, rfl⟩ := memWrite_cases h
    rfl
  · cases h

/-- Settles O36: a step runs in Ready alone, and no handler or host operation touches the engine. -/
theorem nothingLeavesHalted : Obligations.NothingLeavesHalted := by
  intro s f he
  refine ⟨fun t h => ?_, fun i t h => ?_, fun offset word t h => ?_, fun l => ?_, fun index v t h => ?_⟩
  · obtain ⟨-, hready, -⟩ := step_next_cases h
    rw [he] at hready
    cases hready
  · obtain ⟨-, -, hengine⟩ := exec_next_rest h
    rw [hengine, he]
  · obtain ⟨-, rfl⟩ := loadInstructionWord_cases h
    exact he
  · rw [bulkLoad_engine, he]
  · rw [writeRegister_engine h, he]

end Sys2Proof.Machine

/-! PROOFS. Branches that keep the PC (R127, R140): a displacement below 2^PC_BITS that keeps the residue is 0. -/

namespace Sys2Proof.Machine

/-- Settles O24: the two's-complement value of seven bits. -/
theorem branchOffsetRange : Obligations.BranchOffsetRange := by
  intro k
  have hk := k.isLt
  rw [branchOffset_eq_toInt, BitVec.toInt_eq_toNat_cond]
  split
  · omega
  · omega

/-- A PC update that keeps the PC is by a multiple of 2^PC_BITS, so a small one is by 0. -/
theorem displacement_eq_zero {pc d : Int} {bits : Nat} (hbits : 7 ≤ bits) (h : pc = (pc + d) % 2 ^ bits)
    (hd : |d| < 128) : d = 0 := by
  have hdvd : (2 : Int) ^ bits ∣ d := by
    have hdiff := Int.dvd_self_sub_of_emod_eq h.symm
    rwa [add_sub_cancel_left] at hdiff
  have hpow : (128 : Int) ≤ 2 ^ bits := pow_le_pow_right₀ (a := (2 : Int)) (by decide) hbits
  exact Int.eq_zero_of_abs_lt_dvd hdvd (hd.trans_le hpow)

/-- The update of both branches keeps the PC exactly if it is taken with offset -1. -/
theorem branch_keeps_pc {pc : Int} {bits : Nat} {k : BitVec 7} {p : Prop} [Decidable p] (hbits : 7 ≤ bits)
    (h : pc = (if p then pc + k.toInt + 1 else pc + 1) % 2 ^ bits) : p ∧ k = 127 := by
  split at h
  · next hp =>
    have hk := branchOffsetRange k
    rw [branchOffset_eq_toInt] at hk
    obtain ⟨-, -, hlow, hhigh⟩ := hk
    rw [Int.add_assoc] at h
    have hzero := displacement_eq_zero hbits h (abs_lt.mpr ⟨by omega, by omega⟩)
    have hminus : k.toInt = (127 : BitVec 7).toInt := eq_neg_of_add_eq_zero_left hzero
    exact ⟨hp, BitVec.eq_of_toInt_eq hminus⟩
  · cases displacement_eq_zero hbits h (by decide)

/-- Settles O40: an instruction that is no branch moves the PC by 1. -/
theorem onlyATakenSelfBranchKeepsThePc : Obligations.OnlyATakenSelfBranchKeepsThePc := by
  intro s t hbits h hsame
  obtain ⟨w, i, hfetch, hdecode, hpc⟩ := everyExecutionUpdatesThePcOnce s t h
  rw [hsame] at hpc
  cases i with
  | brbs k n =>
    obtain ⟨hset, rfl⟩ := branch_keeps_pc hbits hpc
    exact ⟨w, n, hfetch, .inl ⟨hdecode, hset⟩⟩
  | brbc k n =>
    obtain ⟨hclear, rfl⟩ := branch_keeps_pc hbits hpc
    exact ⟨w, n, hfetch, .inr ⟨hdecode, hclear⟩⟩
  | _ => cases displacement_eq_zero hbits hpc (by decide)

end Sys2Proof.Machine
